-- ==== Sys2Proof/Word.lean ====
section
/-! DEFINITION. The word types of the GundamAssembly EXU: a 32-bit word, a byte, a register index, and the three
instruction fields that are no register index (00_scope.md R5, R6). -/

namespace Sys2Proof

/-- A register value, the pc, an address or an instruction word: 32 bits, bit 0 the least significant (R6). -/
abbrev Word := BitVec 32

/-- One byte of memory. -/
abbrev Byte := BitVec 8

/-- A general register's index, 0 to 31 (R10): every 5-bit field value is a valid index (R14). -/
abbrev Reg := Fin 32

/-- The 16-bit immediate field of an I-format word (R42). -/
abbrev Imm16 := BitVec 16

/-- The 26-bit target field of a J-format word (R43). -/
abbrev Target26 := BitVec 26

end Sys2Proof
end

