-- ==== Sys2Proof/Config.lean ====
section
/-! DEFINITION. What the spec leaves to the implementation and the environment (00_scope.md R5, 92_eei_decisions.md):
the types of the open parameters, the shape of a syscall handler's answer, and the free values. ENC is no state (R26): it
is an argument of the fetch and of the step (log 14). The other parameters' VALUES stand in the state (`State.params`), so
that a statement about every state is about every value of them (log 5). -/

namespace Sys2Proof

/-- A byte memory: (address, byte) pairs in one canonical form, addresses strictly rising. An address that is not
listed holds no value (log 3, log 4). -/
abbrev Memory := List Host.Cell

/-- BYTE_ORDER (R34): which byte of a word lies at its lowest address. No rule depends on it. -/
inductive ByteOrder where
  | little
  | big
deriving DecidableEq, Repr, Inhabited

/-- BRANCH_CONV (R81): the branch-target function. `region` is BT_REGION, the spec's default; `relative` is
BT_RELATIVE; `host` is any other function of the pc and the 16-bit field that keeps an aligned pc aligned. -/
inductive BranchConv where
  | region
  | relative
  | host
deriving DecidableEq, Repr, Inhabited

/-- ENC (R49): the funct of each R-format instruction and the opcode of each I- and J-format instruction. -/
structure Enc where
  add : BitVec 6
  sub : BitVec 6
  mul : BitVec 6
  xor : BitVec 6
  or : BitVec 6
  and : BitVec 6
  slt : BitVec 6
  jr : BitVec 6
  lockon : BitVec 6
  shieldup : BitVec 6
  transam : BitVec 6
  deploybits : BitVec 6
  energize : BitVec 6
  boost : BitVec 6
  syscall : BitVec 6
  beq : BitVec 6
  bne : BitVec 6
  addi : BitVec 6
  lw : BitVec 6
  cbeq : BitVec 6
  thrust : BitVec 6
  scan : BitVec 6
  j : BitVec 6
  call : BitVec 6
  callbase : BitVec 6
  autoevade : BitVec 6
deriving DecidableEq, Repr, Inhabited

/-- FAULT_CODE (R144): the numeric reason code of each of the four fault kinds. No rule reads a number. -/
structure FaultCodes where
  arithmeticOverflow : Int
  divideByZero : Int
  addressFault : Int
  syscallFault : Int
deriving DecidableEq, Repr, Inhabited

/-- The open parameters of R5 that are plain data, ENC apart (R26). -/
structure Params where
  branchConv : BranchConv
  divMinNeg1 : Word
  syscallReg : Reg
  byteOrder : ByteOrder
  faultCode : FaultCodes
deriving DecidableEq, Repr, Inhabited

/-- What the host's syscall handler did to the machine (R130): the registers it wrote, in order; the bytes of data
memory it wrote, in order (`none` makes an address hold no value); a redirect, if it made one; and its own new state. -/
structure HostEffect where
  regWrites : List (Reg × Word)
  memWrites : List (Word × Option Byte)
  redirect : Option Word
  handler : Nat
deriving DecidableEq, Repr, Inhabited

/-- One answer of SYSCALL_EFFECT (R130): a new state or a fault; that the host ends the run (R164 b); or a handler
that changed IMEM, which the spec has the model refuse (R39). A fault carries what the handler left (R145), and so does
the end of a run (the model's choice, log 27). -/
inductive SyscallAnswer where
  | returned (effect : HostEffect)
  | fault (info : Int) (left : HostEffect)
  | endsRun (left : HostEffect)
  | changesImem
deriving DecidableEq, Repr, Inhabited

/-- FREE VALUE (log 9): SYSCALL_EFFECT where the state lists no answer. It may depend on the number of free answers
drawn before it, the call number and all the host can see; nothing constrains it. -/
opaque Config.syscallEffect (draw : Nat) (callNumber : Word) (regs : Vector Word 32) (pc : Word) (mem imem : Memory)
    (handler : Nat) : SyscallAnswer

/-- FREE VALUE (log 16): the branch-target function of a host that uses neither instance of R81. -/
opaque Config.hostBranchTarget (pc : Word) (field : Imm16) : Word

end Sys2Proof
end

