-- ==== Sys2Proof/Syntax.lean ====
section
/-! DEFINITION. The 26 instructions of the catalog (30_encoding.md R47), one constructor per row of the opcode table,
their names and their formats. Operands stand in the order of their fields: rs, rt, rd, immediate. -/

namespace Sys2Proof

/-- A decoded instruction. The operand types admit exactly the values of the fields (R46), so every term is an
instruction. -/
inductive Instr where
  | add (rs rt rd : Reg)
  | sub (rs rt rd : Reg)
  | mul (rs rt rd : Reg)
  | xor (rs rt rd : Reg)
  | or (rs rt rd : Reg)
  | and (rs rt rd : Reg)
  | slt (rs rt rd : Reg)
  | jr (rs : Reg)
  | lockon (rs rt rd : Reg)
  | shieldup (rs : Reg)
  | transam (rs rd : Reg)
  | deploybits (rs rt rd : Reg)
  | energize (rs : Reg)
  | boost (rs rd : Reg)
  | syscall
  | beq (rs rt : Reg) (imm : Imm16)
  | bne (rs rt : Reg) (imm : Imm16)
  | addi (rs rt : Reg) (imm : Imm16)
  | lw (rs rt : Reg) (imm : Imm16)
  | cbeq (rs rt : Reg) (imm : Imm16)
  | thrust (rs rt : Reg) (imm : Imm16)
  | scan (rt : Reg) (imm : Imm16)
  | j (target : Target26)
  | call (target : Target26)
  | callbase (target : Target26)
  | autoevade (target : Target26)
deriving DecidableEq, Repr

/-- The name of a catalog row (R47). -/
inductive Mnemonic where
  | add | sub | mul | xor | or | and | slt | jr | lockon | shieldup | transam | deploybits | energize | boost | syscall
  | beq | bne | addi | lw | cbeq | thrust | scan
  | j | call | callbase | autoevade
deriving DecidableEq, Repr

/-- The three formats (R41, R42, R43). -/
inductive Format where
  | r
  | i
  | j
deriving DecidableEq, Repr

/-- Which row of the catalog an instruction belongs to. -/
def Instr.mnemonic : Instr → Mnemonic
  | .add _ _ _ => .add
  | .sub _ _ _ => .sub
  | .mul _ _ _ => .mul
  | .xor _ _ _ => .xor
  | .or _ _ _ => .or
  | .and _ _ _ => .and
  | .slt _ _ _ => .slt
  | .jr _ => .jr
  | .lockon _ _ _ => .lockon
  | .shieldup _ => .shieldup
  | .transam _ _ => .transam
  | .deploybits _ _ _ => .deploybits
  | .energize _ => .energize
  | .boost _ _ => .boost
  | .syscall => .syscall
  | .beq _ _ _ => .beq
  | .bne _ _ _ => .bne
  | .addi _ _ _ => .addi
  | .lw _ _ _ => .lw
  | .cbeq _ _ _ => .cbeq
  | .thrust _ _ _ => .thrust
  | .scan _ _ => .scan
  | .j _ => .j
  | .call _ => .call
  | .callbase _ => .callbase
  | .autoevade _ => .autoevade

/-- The register an instruction writes through a field (R41, R42, R44), if it has one. -/
def Instr.dest? : Instr → Option Reg
  | .add _ _ rd => some rd
  | .sub _ _ rd => some rd
  | .mul _ _ rd => some rd
  | .xor _ _ rd => some rd
  | .or _ _ rd => some rd
  | .and _ _ rd => some rd
  | .slt _ _ rd => some rd
  | .jr _ => none
  | .lockon _ _ rd => some rd
  | .shieldup _ => none
  | .transam _ rd => some rd
  | .deploybits _ _ rd => some rd
  | .energize _ => none
  | .boost _ rd => some rd
  | .syscall => none
  | .beq _ _ _ => none
  | .bne _ _ _ => none
  | .addi _ rt _ => some rt
  | .lw _ rt _ => some rt
  | .cbeq _ _ _ => none
  | .thrust _ rt _ => some rt
  | .scan rt _ => some rt
  | .j _ => none
  | .call _ => none
  | .callbase _ => none
  | .autoevade _ => none

end Sys2Proof
end

