-- ==== Sys2Proof/Decode.lean ====
section
/-! DEFINITION. Fields of an instruction word, the default assignment ENC_SPEC, the decoder for any ENC, the encoder,
and the opcode table's rows (30_encoding.md). -/

namespace Sys2Proof

/-- word[31:26] (R41, R42, R43). -/
def opcodeField (w : Word) : BitVec 6 := w.extractLsb' 26 6

/-- word[25:21], used unchanged as a register index (R46). -/
def rsField (w : Word) : Reg := (w.extractLsb' 21 5).toFin

/-- word[20:16]. -/
def rtField (w : Word) : Reg := (w.extractLsb' 16 5).toFin

/-- word[15:11]. -/
def rdField (w : Word) : Reg := (w.extractLsb' 11 5).toFin

/-- word[5:0] (R41). -/
def functField (w : Word) : BitVec 6 := w.extractLsb' 0 6

/-- word[15:0] (R42). -/
def immField (w : Word) : Imm16 := w.extractLsb' 0 16

/-- word[25:0] (R43). -/
def targetField (w : Word) : Target26 := w.extractLsb' 0 26

/-- A register index as a 5-bit field. -/
def regBits (r : Reg) : BitVec 5 := BitVec.ofFin r

/-- ENC_SPEC (R50), the spec's default assignment; the spec's own choice (D3, log 14). -/
def encSpec : Enc where
  add := 0b000001
  sub := 0b000010
  mul := 0b000011
  xor := 0b000100
  or := 0b000101
  and := 0b000110
  slt := 0b000111
  jr := 0b001000
  lockon := 0b001001
  shieldup := 0b001010
  transam := 0b001011
  deploybits := 0b001100
  energize := 0b001101
  boost := 0b001110
  syscall := 0b001111
  beq := 0b000001
  bne := 0b000010
  addi := 0b000011
  lw := 0b000100
  cbeq := 0b000101
  thrust := 0b000110
  scan := 0b000111
  j := 0b001000
  call := 0b001001
  callbase := 0b001010
  autoevade := 0b001011

/-- The funct or opcode an ENC gives an instruction (R49). -/
def Enc.code (e : Enc) : Mnemonic → BitVec 6
  | .add => e.add
  | .sub => e.sub
  | .mul => e.mul
  | .xor => e.xor
  | .or => e.or
  | .and => e.and
  | .slt => e.slt
  | .jr => e.jr
  | .lockon => e.lockon
  | .shieldup => e.shieldup
  | .transam => e.transam
  | .deploybits => e.deploybits
  | .energize => e.energize
  | .boost => e.boost
  | .syscall => e.syscall
  | .beq => e.beq
  | .bne => e.bne
  | .addi => e.addi
  | .lw => e.lw
  | .cbeq => e.cbeq
  | .thrust => e.thrust
  | .scan => e.scan
  | .j => e.j
  | .call => e.call
  | .callbase => e.callbase
  | .autoevade => e.autoevade

/-- The format column of R47. -/
def Mnemonic.format : Mnemonic → Format
  | .add | .sub | .mul | .xor | .or | .and | .slt | .jr | .lockon | .shieldup | .transam | .deploybits | .energize
  | .boost | .syscall => .r
  | .beq | .bne | .addi | .lw | .cbeq | .thrust | .scan => .i
  | .j | .call | .callbase | .autoevade => .j

/-- The R-format instructions, looked up by funct (R41). -/
def rMnemonics : List Mnemonic :=
  [.add, .sub, .mul, .xor, .or, .and, .slt, .jr, .lockon, .shieldup, .transam, .deploybits, .energize, .boost, .syscall]

/-- The I- and J-format instructions, looked up by opcode (R42, R43). -/
def ijMnemonics : List Mnemonic :=
  [.beq, .bne, .addi, .lw, .cbeq, .thrust, .scan, .j, .call, .callbase, .autoevade]

/-- The bits of the fields an instruction does not use, which its template has zero (R45; D4, log 15). -/
def Mnemonic.unusedMask : Mnemonic → Word
  | .add | .sub | .mul | .xor | .or | .and | .slt | .lockon | .deploybits => 0x000007C0
  | .jr | .shieldup | .energize => 0x001FFFC0
  | .transam | .boost => 0x001F07C0
  | .syscall => 0x03FFFFC0
  | .scan => 0x03E00000
  | .beq | .bne | .addi | .lw | .cbeq | .thrust | .j | .call | .callbase | .autoevade => 0

/-- The instruction of a row with the operands a word's fields give it (R46, R51). -/
def Mnemonic.build (m : Mnemonic) (w : Word) : Instr :=
  match m with
  | .add => .add (rsField w) (rtField w) (rdField w)
  | .sub => .sub (rsField w) (rtField w) (rdField w)
  | .mul => .mul (rsField w) (rtField w) (rdField w)
  | .xor => .xor (rsField w) (rtField w) (rdField w)
  | .or => .or (rsField w) (rtField w) (rdField w)
  | .and => .and (rsField w) (rtField w) (rdField w)
  | .slt => .slt (rsField w) (rtField w) (rdField w)
  | .jr => .jr (rsField w)
  | .lockon => .lockon (rsField w) (rtField w) (rdField w)
  | .shieldup => .shieldup (rsField w)
  | .transam => .transam (rsField w) (rdField w)
  | .deploybits => .deploybits (rsField w) (rtField w) (rdField w)
  | .energize => .energize (rsField w)
  | .boost => .boost (rsField w) (rdField w)
  | .syscall => .syscall
  | .beq => .beq (rsField w) (rtField w) (immField w)
  | .bne => .bne (rsField w) (rtField w) (immField w)
  | .addi => .addi (rsField w) (rtField w) (immField w)
  | .lw => .lw (rsField w) (rtField w) (immField w)
  | .cbeq => .cbeq (rsField w) (rtField w) (immField w)
  | .thrust => .thrust (rsField w) (rtField w) (immField w)
  | .scan => .scan (rtField w) (immField w)
  | .j => .j (targetField w)
  | .call => .call (targetField w)
  | .callbase => .callbase (targetField w)
  | .autoevade => .autoevade (targetField w)

/-- Why a word, or a run of bytes, is no instruction (R52). -/
inductive DecodeReject where
  /-- Opcode 000000 and a funct of no R-format instruction. -/
  | unknownFunct (funct : BitVec 6)
  /-- A non-zero opcode of no I- or J-format instruction. -/
  | unknownOpcode (opcode : BitVec 6)
  /-- The row is found and a field it does not use is not zero. -/
  | unusedFieldNotZero (row : Mnemonic)
  /-- Fewer than four bytes. -/
  | truncated
deriving DecidableEq, Repr

/-- The last check of R51: the row's unused fields are zero. -/
def Mnemonic.accept (m : Mnemonic) (w : Word) : Except DecodeReject Instr :=
  if w &&& m.unusedMask = 0 then .ok (m.build w) else .error (.unusedFieldNotZero m)

/-- Decoding under any ENC (R51), total on every word. -/
def decodeWord (e : Enc) (w : Word) : Except DecodeReject Instr :=
  if opcodeField w = 0 then
    match rMnemonics.find? (fun m => e.code m == functField w) with
    | some m => m.accept w
    | none => .error (.unknownFunct (functField w))
  else
    match ijMnemonics.find? (fun m => e.code m == opcodeField w) with
    | some m => m.accept w
    | none => .error (.unknownOpcode (opcodeField w))

/-- The word whose bytes, from the lowest address up, are b0 b1 b2 b3 (R34). -/
def wordOfBytes (o : ByteOrder) (b0 b1 b2 b3 : Byte) : Word :=
  match o with
  | .little => b3 ++ b2 ++ b1 ++ b0
  | .big => b0 ++ b1 ++ b2 ++ b3

/-- The byte of a word that lies k places above its lowest address, k from 0 to 3 (R34). -/
def byteOfWord (o : ByteOrder) (w : Word) (k : Nat) : Byte :=
  match o with
  | .little => w.extractLsb' (8 * k) 8
  | .big => w.extractLsb' (8 * (3 - k)) 8

/-- The decoder on bytes: one instruction and the bytes after it, or the reason there is none. -/
def decodeBytes (e : Enc) (o : ByteOrder) : List Byte → Except DecodeReject (Instr × List Byte)
  | b0 :: b1 :: b2 :: b3 :: rest =>
    match decodeWord e (wordOfBytes o b0 b1 b2 b3) with
    | .ok i => .ok (i, rest)
    | .error r => .error r
  | _ => .error .truncated

/-- A word of the opcode table's numbering, laid out as bytes and given to the decoder under ENC_SPEC. -/
def decodeTableWord (nbits w : Nat) : Option Instr :=
  let word : Word := BitVec.ofNat 32 (w % 2 ^ nbits)
  match decodeBytes encSpec .little [byteOfWord .little word 0, byteOfWord .little word 1, byteOfWord .little word 2,
      byteOfWord .little word 3] with
  | .ok (i, _) => some i
  | .error _ => none

/-- An R-format word (R41): opcode 000000, shamt 00000. -/
def rWord (funct : BitVec 6) (rs rt rd : Reg) : Word :=
  (0b000000 : BitVec 6) ++ regBits rs ++ regBits rt ++ regBits rd ++ (0b00000 : BitVec 5) ++ funct

/-- An I-format word (R42). -/
def iWord (opcode : BitVec 6) (rs rt : Reg) (imm : Imm16) : Word :=
  opcode ++ regBits rs ++ regBits rt ++ imm

/-- A J-format word (R43). -/
def jWord (opcode : BitVec 6) (target : Target26) : Word :=
  opcode ++ target

/-- The word of an instruction under any ENC, its unused fields zero (R45, R49). -/
def encodeWord (e : Enc) : Instr → Word
  | .add rs rt rd => rWord e.add rs rt rd
  | .sub rs rt rd => rWord e.sub rs rt rd
  | .mul rs rt rd => rWord e.mul rs rt rd
  | .xor rs rt rd => rWord e.xor rs rt rd
  | .or rs rt rd => rWord e.or rs rt rd
  | .and rs rt rd => rWord e.and rs rt rd
  | .slt rs rt rd => rWord e.slt rs rt rd
  | .jr rs => rWord e.jr rs 0 0
  | .lockon rs rt rd => rWord e.lockon rs rt rd
  | .shieldup rs => rWord e.shieldup rs 0 0
  | .transam rs rd => rWord e.transam rs 0 rd
  | .deploybits rs rt rd => rWord e.deploybits rs rt rd
  | .energize rs => rWord e.energize rs 0 0
  | .boost rs rd => rWord e.boost rs 0 rd
  | .syscall => rWord e.syscall 0 0 0
  | .beq rs rt imm => iWord e.beq rs rt imm
  | .bne rs rt imm => iWord e.bne rs rt imm
  | .addi rs rt imm => iWord e.addi rs rt imm
  | .lw rs rt imm => iWord e.lw rs rt imm
  | .cbeq rs rt imm => iWord e.cbeq rs rt imm
  | .thrust rs rt imm => iWord e.thrust rs rt imm
  | .scan rt imm => iWord e.scan 0 rt imm
  | .j target => jWord e.j target
  | .call target => jWord e.call target
  | .callbase target => jWord e.callbase target
  | .autoevade target => jWord e.autoevade target

/-- The words of an instruction under ENC_SPEC: one (R40). -/
def encode (i : Instr) : List Word := [encodeWord encSpec i]

/-- The match column of R50's table. -/
def Mnemonic.rowMatch : Mnemonic → Word
  | .add => 0x00000001
  | .sub => 0x00000002
  | .mul => 0x00000003
  | .xor => 0x00000004
  | .or => 0x00000005
  | .and => 0x00000006
  | .slt => 0x00000007
  | .jr => 0x00000008
  | .lockon => 0x00000009
  | .shieldup => 0x0000000A
  | .transam => 0x0000000B
  | .deploybits => 0x0000000C
  | .energize => 0x0000000D
  | .boost => 0x0000000E
  | .syscall => 0x0000000F
  | .beq => 0x04000000
  | .bne => 0x08000000
  | .addi => 0x0C000000
  | .lw => 0x10000000
  | .cbeq => 0x14000000
  | .thrust => 0x18000000
  | .scan => 0x1C000000
  | .j => 0x20000000
  | .call => 0x24000000
  | .callbase => 0x28000000
  | .autoevade => 0x2C000000

/-- The mask column of R50's table. -/
def Mnemonic.rowMask : Mnemonic → Word
  | .add | .sub | .mul | .xor | .or | .and | .slt | .lockon | .deploybits => 0xFC0007FF
  | .jr | .shieldup | .energize => 0xFC1FFFFF
  | .transam | .boost => 0xFC1F07FF
  | .syscall => 0xFFFFFFFF
  | .scan => 0xFFE00000
  | .beq | .bne | .addi | .lw | .cbeq | .thrust | .j | .call | .callbase | .autoevade => 0xFC000000

/-- "A word w selects the row with (w & mask) = match" (R50). -/
abbrev Mnemonic.selectedBy (m : Mnemonic) (w : Word) : Prop := w &&& m.rowMask = m.rowMatch

end Sys2Proof
end

