-- ==== Sys2Proof/Machine/Memory.lean ====
section
/-! DEFINITION. Byte memories: reading, writing, and words built from bytes in one place (20_memory.md R30, R31, R34). -/

namespace Sys2Proof

/-- What an address that is not listed reads as: no value (log 3, log 4). -/
def Memory.unlisted : Option Byte := none

/-- The byte at an address. -/
def Memory.read : Memory → Nat → Option Byte
  | [], _ => Memory.unlisted
  | (k, b) :: m, a => if k = a then some b else Memory.read m a

/-- Put a byte at an address. -/
def Memory.insert : Memory → Nat → Byte → Memory
  | [], a, b => [(a, b)]
  | (k, c) :: m, a, b =>
    if a < k then (a, b) :: (k, c) :: m else if a = k then (a, b) :: m else (k, c) :: Memory.insert m a b

/-- Make an address hold no value. -/
def Memory.remove (m : Memory) (a : Nat) : Memory := m.filter fun c => c.1 != a

/-- Write what a read of the address is to give; what an unlisted address reads as takes the entry out. -/
def Memory.write (m : Memory) (a : Nat) : Option Byte → Memory
  | some b => m.insert a b
  | none => m.remove a

/-- The canonical form: addresses strictly rising and inside the 32-bit space (R24). No listed byte equals what an
unlisted address reads as, since that is no byte. -/
abbrev Memory.wf (m : Memory) : Prop :=
  m.Pairwise (fun c d => c.1 < d.1) ∧ ∀ c ∈ m, c.1 < 2 ^ 32

/-- Whether an address is word-aligned: addr[1:0] = 00 (R22, R35). -/
abbrev aligned (a : Word) : Prop := a.extractLsb' 0 2 = 0#2

/-- The word whose four bytes start at an address, when all four are listed (R31). -/
def Memory.readWord (o : ByteOrder) (m : Memory) (a : Word) : Option Word :=
  match m.read a.toNat, m.read (a.toNat + 1), m.read (a.toNat + 2), m.read (a.toNat + 3) with
  | some b0, some b1, some b2, some b3 => some (wordOfBytes o b0 b1 b2 b3)
  | _, _, _, _ => none

/-- Write the four bytes of a word, the lowest address first. -/
def Memory.writeWord (o : ByteOrder) (m : Memory) (a : Word) (v : Word) : Memory :=
  (((m.write a.toNat (some (byteOfWord o v 0))).write (a.toNat + 1) (some (byteOfWord o v 1))).write (a.toNat + 2)
    (some (byteOfWord o v 2))).write (a.toNat + 3) (some (byteOfWord o v 3))

end Sys2Proof
end

