-- ==== Sys2Proof/Machine/Defaults.lean ====
section
/-! DEFINITION. The values State.reset takes where the spec states none: the spec's defaults for the open parameters
(00_scope.md R5) and the model's own choices, each with its log entry. -/

namespace Sys2Proof.Machine

/-- The parameters at reset. BT_REGION and 0x80000000 are the spec's defaults (R5; log 16, 17).
SYSCALL_REG 2 is PRESUMED (log 6). BYTE_ORDER and FAULT_CODE are DESIGN CHOICE (log 7, log 8). -/
def defaultParams : Params where
  branchConv := .region
  divMinNeg1 := 0x80000000
  syscallReg := 2
  byteOrder := .little
  faultCode := { arithmeticOverflow := 1, divideByZero := 2, addressFault := 3, syscallFault := 4 }

/-- x[i] = 0xA5A50000 + i: DESIGN CHOICE (log 1), the start state of the spec's programs (95_test_vectors.md Part 3),
which it uses "to show that nothing is assumed zero". -/
def resetRegs : Vector Word 32 :=
  #v[0xA5A50000, 0xA5A50001, 0xA5A50002, 0xA5A50003, 0xA5A50004, 0xA5A50005, 0xA5A50006, 0xA5A50007,
    0xA5A50008, 0xA5A50009, 0xA5A5000A, 0xA5A5000B, 0xA5A5000C, 0xA5A5000D, 0xA5A5000E, 0xA5A5000F,
    0xA5A50010, 0xA5A50011, 0xA5A50012, 0xA5A50013, 0xA5A50014, 0xA5A50015, 0xA5A50016, 0xA5A50017,
    0xA5A50018, 0xA5A50019, 0xA5A5001A, 0xA5A5001B, 0xA5A5001C, 0xA5A5001D, 0xA5A5001E, 0xA5A5001F]

/-- The entry point at reset: DESIGN CHOICE (log 2), the pc of the spec's test vectors; aligned, as R27 requires. -/
def resetPc : Word := 0x00400000

end Sys2Proof.Machine
end

