-- ==== Sys2Proof/Machine/State.lean ====
section
/-! DEFINITION. The machine's state, its faults, its refusals, and the state after reset (10_state.md, 60_exceptions.md
R144, 70_reset_and_hazards.md R160, R164). -/

namespace Sys2Proof.Machine

/-- The whole state (R25), the open parameters (R5), and the model's own input and counter for SYSCALL_EFFECT (log 9). -/
structure State where
  /-- x[0] to x[31] (R10); LINK, EN, MS, SR are x[7], x[25], x[26], x[27] (R12). -/
  regs : Vector Word 32
  /-- The program counter (R15): during an instruction, that instruction's address (R20). -/
  pc : Word
  /-- Data memory, MEM and MEM_FAULT together (R30): a word is readable when it is aligned and its bytes are listed. -/
  mem : Memory
  /-- Instruction memory IMEM (R36), a partial function (R164). -/
  imem : Memory
  /-- The state the host's syscall handler keeps (R25). -/
  handler : Nat
  /-- The host's answers to the next SYSCALLs, oldest first (R130, log 9). The model's own field. -/
  answers : List SyscallAnswer
  /-- How many free syscall answers were drawn (log 9). The model's own field. -/
  draws : Nat
  /-- The open parameters but ENC (R5, R26, log 5). No step changes them. -/
  params : Params
deriving DecidableEq, Repr

/-- The six faults of R144's table. After one the machine stops (R146). -/
inductive Fault where
  /-- Raised by ADD, SUB, ADDI on signed overflow (R140). Safe: the host may go on, the model stops (log 18). -/
  | arithmeticOverflow
  /-- Raised by DEPLOYBITS when x[rt] = 0 (R141). Safe (log 18). -/
  | divideByZero
  /-- Raised by LW, with the address, when MEM_FAULT holds of it (R142). Safe (log 18, log 26). -/
  | addressFault (addr : Word)
  /-- Raised by SYSCALL when the host's handler signals a fault (R142), with the host's datum and what the handler
  left (R145). Safe (log 12, log 18). -/
  | syscallFault (info : Int) (left : HostEffect)
  /-- Raised by the fetch when pc[1:0] != 00 (R143). Safe: the model's own stop (log 19). -/
  | fetchMisaligned (pc : Word)
  /-- Raised by the decode when no template matches the word (R52, R143). Safe: the model's own stop (log 19). -/
  | illegalInstruction (word : Word)
deriving DecidableEq, Repr

/-- Why the model takes no step although nothing faulted. -/
inductive Refusal where
  /-- An instruction that has no meaning yet; raised by exec's arm alone. Safe. -/
  | notModelled (mnemonic : String)
  /-- Raised by the fetch: IMEM is not defined at pc, and the run ends with the state as it is (R164 c). Safe: no claim
  about what the host does there (log 4). -/
  | endOfProgram (pc : Word)
  /-- Raised by SYSCALL: the host ends the run at this call number (R164 b), with what the handler left; the pc stays at
  the SYSCALL. Safe (log 27). -/
  | runEndedByHost (callNumber : Word) (left : HostEffect)
  /-- Raised by SYSCALL: the handler changed IMEM, which the spec has the model refuse (R39). Safe (log 11). -/
  | imemChanged (callNumber : Word)
deriving DecidableEq, Repr

/-- The machine right after reset. The spec gives no value but that the pc is aligned (R27, R160): every value here is
named in the log (1 to 10, 16, 17). -/
def State.reset : State where
  regs := resetRegs
  pc := resetPc
  mem := []
  imem := []
  handler := 0
  answers := []
  draws := 0
  params := defaultParams

end Sys2Proof.Machine
end

