-- ==== Sys2Proof/Machine/Ops.lean ====
section
/-! DEFINITION. The operations every instruction is built from: the register file, the program counter, the memory
interface, raising a fault, and ending an instruction (10_state.md, 20_memory.md, 40_functional_units.md,
60_exceptions.md). -/

namespace Sys2Proof.Machine

/-- LINK (R12). -/
abbrev linkReg : Reg := 7

/-- EN, the energy counter (R12). -/
abbrev enReg : Reg := 25

/-- MS, the mobile-suit status word (R12). -/
abbrev msReg : Reg := 26

/-- SR, the status register (R12, R16). -/
abbrev srReg : Reg := 27

/-- The outcome of an instruction or a step. -/
abbrev Result := Host.Outcome State Fault Refusal

/-- `register_read(index)` (R14): it cannot fail and has no side effect; register 0 is ordinary (R11). -/
def State.readReg (s : State) (r : Reg) : Word := s.regs[r]

/-- `register_write(index, value)` (R14): it cannot fail and replaces all 32 bits. -/
def State.writeReg (s : State) (r : Reg) (v : Word) : State := { s with regs := s.regs.set r v }

/-- Set the program counter (R15). -/
def State.setPc (s : State) (a : Word) : State := { s with pc := a }

/-- Replace data memory. -/
def State.setMem (s : State) (m : Memory) : State := { s with mem := m }

/-- Replace instruction memory: the load of a program, never an instruction (R39). -/
def State.setImem (s : State) (m : Memory) : State := { s with imem := m }

/-- Taking a fault (R145, R146, R148): the instruction ends, nothing is written or saved, the pc stays, the machine
stops. There is no trap entry and so no return from one (R149). -/
def raise (f : Fault) : Result := .fault f

/-- The end of an instruction that made no redirect: the host's `pc <- pc + 4`, modulo 2^32 (R21; log 13, log 33). -/
def advance (s : State) : Result := .next (s.setPc (s.pc + 4))

/-- The end of an instruction that performed `pc <- target` (R21): nothing is added to a redirected pc. -/
def redirect (s : State) (target : Word) : Result := .next (s.setPc target)

/-- Go on with a checked value, or end the instruction at the fault (R62 step 2: a fault here ends it with no write). -/
def withChecked (r : Except Fault Word) (k : Word → Result) : Result :=
  match r with
  | .ok v => k v
  | .error f => raise f

/-- MEM_FAULT (R30, R35): every misaligned address, and every word that is not wholly listed (log 3, log 26). -/
def State.memFault (s : State) (addr : Word) : Bool :=
  !decide (aligned addr) || (s.mem.readWord s.params.byteOrder addr).isNone

/-- `MemRead(addr, 4)` (R31). -/
def State.memRead (s : State) (addr : Word) : Except Fault Word :=
  if aligned addr then
    match s.mem.readWord s.params.byteOrder addr with
    | some v => .ok v
    | none => .error (.addressFault addr)
  else .error (.addressFault addr)

/-- `MemWrite(addr, 4, v)` (R33): part of the host's contract, fallible with an addressing fault, used by no instruction
(log 28). -/
def State.memWrite (s : State) (addr v : Word) : Except Fault State :=
  if s.memFault addr then .error (.addressFault addr)
  else .ok (s.setMem (s.mem.writeWord s.params.byteOrder addr v))

/-- The reason code a fault is raised with (R144); the step wrapper's two faults have none (R143). -/
def reasonCode (c : FaultCodes) : Fault → Option Int
  | .arithmeticOverflow => some c.arithmeticOverflow
  | .divideByZero => some c.divideByZero
  | .addressFault _ => some c.addressFault
  | .syscallFault _ _ => some c.syscallFault
  | .fetchMisaligned _ => none
  | .illegalInstruction _ => none

end Sys2Proof.Machine
end

