-- ==== Sys2Proof/Machine/Alu.lean ====
section
/-! DEFINITION. The arithmetic and overflow unit (40_functional_units.md R68 to R79). Its two conditions are faults and
are stored nowhere (R68). -/

namespace Sys2Proof.Machine

/-- The `ovf` condition of an addition (R70). -/
def addOverflow (a b : Word) : Bool := a.msb == b.msb && (a + b).msb != a.msb

/-- `CheckedAdd(a, b)` (R70). -/
def checkedAdd (a b : Word) : Except Fault Word :=
  if addOverflow a b then .error .arithmeticOverflow else .ok (a + b)

/-- The `ovf` condition of a subtraction (R71). -/
def subOverflow (a b : Word) : Bool := a.msb != b.msb && (a - b).msb == b.msb

/-- `CheckedSub(a, b)` (R71). -/
def checkedSub (a b : Word) : Except Fault Word :=
  if subOverflow a b then .error .arithmeticOverflow else .ok (a - b)

/-- `TruncMul(a, b)`: the low 32 bits of the exact signed product (R72). -/
def truncMul (a b : Word) : Word := BitVec.ofInt 32 (a.toInt * b.toInt)

/-- `CheckedDiv(a, b)` (R73): the exact quotient rounded toward zero, the one quotient that does not fit being the
parameter DIV_MIN_NEG1 (D15, log 17). -/
def checkedDiv (divMinNeg1 a b : Word) : Except Fault Word :=
  if b = 0 then .error .divideByZero
  else if a = 0x80000000 ∧ b = 0xFFFFFFFF then .ok divMinNeg1
  else .ok (BitVec.ofInt 32 (a.toInt.tdiv b.toInt))

/-- `Slt(a, b)`: compares the exact signed values (R76). -/
def slt (a b : Word) : Word := if a.toInt < b.toInt then 1 else 0

/-- `Shl1(a)` (R78): bit 31 is lost. -/
def shl1 (a : Word) : Word := a <<< 1

end Sys2Proof.Machine
end

