-- ==== Sys2Proof/Machine/Operands.lean ====
section
/-! DEFINITION. How an operand is formed from a field (30_encoding.md R46, 40_functional_units.md R74): a register
operand is `State.readReg` of the field. -/

namespace Sys2Proof.Machine

/-- The sign-extended 16-bit immediate of ADDI, LW, THRUST and SCAN (R74). -/
def sext32 (imm : Imm16) : Word := imm.signExtend 32

/-- The zero-extended 16-bit field (R6). -/
def zext32 (imm : Imm16) : Word := imm.setWidth 32

/-- THRUST's operand: the sign-extended immediate, shifted left by 2 (R46). -/
def scaledImm (imm : Imm16) : Word := sext32 imm <<< 2

/-- The 28-bit byte offset of a jump: the target field, zero-extended and scaled by 4 (R46). -/
def targetOffset (t : Target26) : Word := t.setWidth 32 <<< 2

end Sys2Proof.Machine
end

