-- ==== Sys2Proof/Machine/Arith.lean ====
section
/-! DEFINITION. Arithmetic, logic and compare instructions (41_arith_logic.md R90 to R97). None touches a flag by role. -/

namespace Sys2Proof.Machine

/-- ADD (R90). -/
def execAdd (rs rt rd : Reg) (s : State) : Result :=
  withChecked (checkedAdd (s.readReg rs) (s.readReg rt)) fun y => advance (s.writeReg rd y)

/-- SUB (R91). -/
def execSub (rs rt rd : Reg) (s : State) : Result :=
  withChecked (checkedSub (s.readReg rs) (s.readReg rt)) fun y => advance (s.writeReg rd y)

/-- MUL (R92). -/
def execMul (rs rt rd : Reg) (s : State) : Result :=
  advance (s.writeReg rd (truncMul (s.readReg rs) (s.readReg rt)))

/-- XOR (R93). -/
def execXor (rs rt rd : Reg) (s : State) : Result := advance (s.writeReg rd (s.readReg rs ^^^ s.readReg rt))

/-- OR (R94). -/
def execOr (rs rt rd : Reg) (s : State) : Result := advance (s.writeReg rd (s.readReg rs ||| s.readReg rt))

/-- AND (R95). -/
def execAnd (rs rt rd : Reg) (s : State) : Result := advance (s.writeReg rd (s.readReg rs &&& s.readReg rt))

/-- SLT (R96). -/
def execSlt (rs rt rd : Reg) (s : State) : Result := advance (s.writeReg rd (slt (s.readReg rs) (s.readReg rt)))

/-- ADDI (R97); the destination is rt (R44, log 30). -/
def execAddi (rs rt : Reg) (imm : Imm16) (s : State) : Result :=
  withChecked (checkedAdd (s.readReg rs) (sext32 imm)) fun y => advance (s.writeReg rt y)

end Sys2Proof.Machine
end

