-- ==== Sys2Proof/Machine/Flags.lean ====
section
/-! DEFINITION. The status flag subsystem (40_functional_units.md R64 to R67) over SR, register 27 (10_state.md R16). -/

namespace Sys2Proof.Machine

/-- The nine named bits of SR (R16). -/
inductive Flag where
  | zero
  | negative
  | carry
  | overflow
  | shield
  | lockon
  | transam
  | danger
  | callbase
deriving DecidableEq, Repr

/-- The bit number of a flag (R16). -/
def Flag.bit : Flag → Nat
  | .zero => 0
  | .negative => 1
  | .carry => 2
  | .overflow => 3
  | .shield => 4
  | .lockon => 5
  | .transam => 6
  | .danger => 7
  | .callbase => 8

/-- A word of SR with one bit set or cleared (R65). -/
def srWithFlag (sr : Word) (f : Flag) (val : Bool) : Word :=
  if val then sr ||| (1#32 <<< f.bit) else sr &&& ~~~(1#32 <<< f.bit)

/-- A word of SR with Zero and Negative derived from a produced value (R66). -/
def srWithZN (sr v : Word) : Word :=
  (sr &&& 0xFFFFFFFC) ||| (if v = 0 then 0x1 else 0x0) ||| (if v.msb then 0x2 else 0x0)

/-- `GetFlag(bit)` (R64). -/
def State.getFlag (s : State) (f : Flag) : Bool := (s.readReg srReg).getLsbD f.bit

/-- `SetFlag(bit, value)` (R65): a read-modify-write of the current SR. -/
def State.setFlag (s : State) (f : Flag) (val : Bool) : State :=
  s.writeReg srReg (srWithFlag (s.readReg srReg) f val)

/-- `UpdateZN(result)` (R66): one read-modify-write of the current SR. -/
def State.updateZN (s : State) (v : Word) : State := s.writeReg srReg (srWithZN (s.readReg srReg) v)

end Sys2Proof.Machine
end

