-- ==== Sys2Proof/Machine/ControlFlow.lean ====
section
/-! DEFINITION. The control-flow unit (40_functional_units.md R80 to R86) and the control-transfer instructions
(42_control_flow.md R100 to R107). None of them faults. -/

namespace Sys2Proof.Machine

/-- `JumpTarget(pc, target26)` (R80). -/
def jumpTarget (pc : Word) (t : Target26) : Word := (pc &&& 0xF0000000) ||| targetOffset t

/-- BT_REGION (R81), the spec's default. -/
def btRegion (pc : Word) (f : Imm16) : Word := (pc &&& (0xF0000000 : Word)) ||| (zext32 f <<< 2)

/-- BT_RELATIVE (R81). -/
def btRelative (pc : Word) (f : Imm16) : Word := pc + (4 : Word) + (sext32 f <<< 2)

/-- Any other host's function (R81): free, but that it keeps an aligned pc aligned (log 16). -/
def btHost (pc : Word) (f : Imm16) : Word :=
  if aligned pc then Config.hostBranchTarget pc f &&& 0xFFFFFFFC else Config.hostBranchTarget pc f

/-- `BranchTarget(pc, imm16)`, the parameter BRANCH_CONV (R81). -/
def branchTarget (c : BranchConv) (pc : Word) (f : Imm16) : Word :=
  match c with
  | .region => btRegion pc f
  | .relative => btRelative pc f
  | .host => btHost pc f

/-- `BranchIf(cond, imm16)` (R82): no delay slot; a branch not taken changes nothing. -/
def branchIf (cond : Bool) (imm : Imm16) (s : State) : Result :=
  if cond then redirect s (branchTarget s.params.branchConv s.pc imm) else advance s

/-- `CallSeq(target26, mark)` (R84): link, then the marker, then the transfer. -/
def callSeq (t : Target26) (mark : Bool) (s : State) : Result :=
  let linked := s.writeReg linkReg (s.pc + 4)
  redirect (if mark then linked.setFlag .callbase true else linked) (jumpTarget s.pc t)

/-- BEQ (R100). -/
def execBeq (rs rt : Reg) (imm : Imm16) (s : State) : Result := branchIf (s.readReg rs == s.readReg rt) imm s

/-- BNE (R101). -/
def execBne (rs rt : Reg) (imm : Imm16) (s : State) : Result := branchIf (s.readReg rs != s.readReg rt) imm s

/-- CBEQ (R102): an instruction of its own with BEQ's semantics (D11, log 25). -/
def execCbeq (rs rt : Reg) (imm : Imm16) (s : State) : Result := branchIf (s.readReg rs == s.readReg rt) imm s

/-- JR (R103): the register's contents verbatim (R83). -/
def execJr (rs : Reg) (s : State) : Result := redirect s (s.readReg rs)

/-- J (R104). -/
def execJ (t : Target26) (s : State) : Result := redirect s (jumpTarget s.pc t)

/-- CALL (R105): links and marks nothing (D10, log 24). -/
def execCall (t : Target26) (s : State) : Result := callSeq t false s

/-- CALLBASE (R106). -/
def execCallbase (t : Target26) (s : State) : Result := callSeq t true s

/-- AUTOEVADE (R107): a jump gated on DANGER, which it does not clear (R85). -/
def execAutoevade (t : Target26) (s : State) : Result :=
  if s.getFlag .danger then redirect s (jumpTarget s.pc t) else advance s

end Sys2Proof.Machine
end

