-- ==== Sys2Proof/Machine/Load.lean ====
section
/-! DEFINITION. The load instruction (43_load.md R110). -/

namespace Sys2Proof.Machine

/-- The address LW issues, modulo 2^32 and unchecked (R32). -/
def loadAddress (rs : Reg) (imm : Imm16) (s : State) : Word := s.readReg rs + sext32 imm

/-- LW (R110); the destination is rt (R44, log 30). -/
def execLw (rs rt : Reg) (imm : Imm16) (s : State) : Result :=
  withChecked (s.memRead (loadAddress rs imm s)) fun v => advance ((s.writeReg rt v).updateZN v)

end Sys2Proof.Machine
end

