-- ==== Sys2Proof/Machine/SuitState.lean ====
section
/-! DEFINITION. Suit-state instructions (44_suit_state.md R120 to R127). Effects stand in the order of
40_functional_units.md R62: destination, role register, flags (log 21). -/

namespace Sys2Proof.Machine

/-- LOCKON (R120). -/
def execLockon (rs rt rd : Reg) (s : State) : Result :=
  let e := s.readReg rs == s.readReg rt
  let v : Word := if e then 1 else 0
  advance (((s.writeReg rd v).setFlag .lockon e).updateZN v)

/-- SHIELDUP (R121): a zero clears SHIELD (D12, log 20). -/
def execShieldup (rs : Reg) (s : State) : Result := advance (s.setFlag .shield (s.readReg rs != 0))

/-- The decrement of EN: a read-modify-write of the current x[25] (R122; D14, log 23). -/
def State.spendEnergy (s : State) : State := s.writeReg enReg (s.readReg enReg - 1)

/-- TRANSAM (R122): the test is signed and uses EN as read before any write (R61). -/
def execTransam (rs rd : Reg) (s : State) : Result :=
  let a := s.readReg rs
  if (s.readReg enReg).toInt > 0 then
    let v := truncMul a 3
    advance ((((s.writeReg rd v).spendEnergy).setFlag .transam true).updateZN v)
  else
    advance (((s.writeReg rd a).setFlag .transam false).updateZN a)

/-- DEPLOYBITS (R123): DANGER is cleared when the quotient is not zero, and never set. -/
def execDeploybits (rs rt rd : Reg) (s : State) : Result :=
  withChecked (checkedDiv s.params.divMinNeg1 (s.readReg rs) (s.readReg rt)) fun q =>
    let t := (s.writeReg rd q).updateZN q
    advance (if q ≠ 0 then t.setFlag .danger false else t)

/-- THRUST (R124): unchecked; the destination is rt (R44, log 30). -/
def execThrust (rs rt : Reg) (imm : Imm16) (s : State) : Result :=
  let v := s.readReg rs + scaledImm imm
  advance ((s.writeReg rt v).updateZN v)

/-- ENERGIZE (R125). -/
def execEnergize (rs : Reg) (s : State) : Result := advance (s.writeReg enReg (s.readReg rs))

/-- What SCAN copies: all 32 bits of the sign-extended selector take part (R126; D13, log 22). -/
def scanValue (imm : Imm16) (s : State) : Word :=
  if sext32 imm = 0 then s.readReg srReg
  else if sext32 imm = 1 then s.readReg enReg
  else if sext32 imm = 2 then s.readReg msReg
  else 0

/-- SCAN (R126); the destination is rt (R44, log 30). -/
def execScan (rt : Reg) (imm : Imm16) (s : State) : Result :=
  let v := scanValue imm s
  advance ((s.writeReg rt v).updateZN v)

/-- BOOST (R127). -/
def execBoost (rs rd : Reg) (s : State) : Result :=
  let v := shl1 (s.readReg rs)
  advance ((s.writeReg rd v).updateZN v)

end Sys2Proof.Machine
end

