-- ==== Sys2Proof/Machine/System.lean ====
section
/-! DEFINITION. The system instruction (45_system.md R130): the call number handed to the host, and the host's answer. -/

namespace Sys2Proof.Machine

/-- The call number: x[SYSCALL_REG] (R130). -/
def callNumber (s : State) : Word := s.readReg s.params.syscallReg

/-- The answer SYSCALL_EFFECT gives this SYSCALL: the next one listed, else the free value (log 9). -/
def hostAnswer (s : State) : SyscallAnswer :=
  match s.answers with
  | a :: _ => a
  | [] => Config.syscallEffect s.draws (callNumber s) s.regs s.pc s.mem s.imem s.handler

/-- The state after an answer was taken: a listed one leaves the list, a free one advances the counter (log 9). -/
def consumeAnswer (s : State) : State :=
  match s.answers with
  | _ :: rest => { s with answers := rest }
  | [] => { s with draws := s.draws + 1 }

/-- The handler's register writes, in order. -/
def writeRegs (s : State) (ws : List (Reg × Word)) : State := ws.foldl (fun t w => t.writeReg w.1 w.2) s

/-- The handler's byte writes to data memory, in order. -/
def writeBytes (m : Memory) (ws : List (Word × Option Byte)) : Memory := ws.foldl (fun m w => m.write w.1.toNat w.2) m

/-- What the handler did to registers, data memory and its own state (R130, log 11). Its byte writes go past MEM_FAULT and
can change where MEM_FAULT holds, of which R30 says nothing: DESIGN CHOICE (log 34). -/
def applyHostEffect (s : State) (e : HostEffect) : State :=
  { writeRegs s e.regWrites with mem := writeBytes s.mem e.memWrites, handler := e.handler }

/-- SYSCALL (R130). If the handler returns and redirected nothing, the host advances the pc (R21). Where the host ends the
run (R164 b), the stop carries what the handler left and the pc is not advanced: DESIGN CHOICE (log 27). -/
def execSyscall (s : State) : Result :=
  match hostAnswer s with
  | .returned e =>
    let t := applyHostEffect (consumeAnswer s) e
    match e.redirect with
    | none => advance t
    | some target => redirect t target
  | .fault info left => raise (.syscallFault info left)
  | .endsRun left => .refused (.runEndedByHost (callNumber s) left)
  | .changesImem => .refused (.imemChanged (callNumber s))

end Sys2Proof.Machine
end

