-- ==== Sys2Proof/Machine/Dispatch.lean ====
section
/-! DEFINITION. One arm per instruction (30_encoding.md R47). -/

namespace Sys2Proof.Machine

def exec (i : Instr) (s : State) : Host.Outcome State Fault Refusal :=
  match i with
  | .add rs rt rd => Sys2Proof.Machine.execAdd rs rt rd s
  | .sub rs rt rd => Sys2Proof.Machine.execSub rs rt rd s
  | .mul rs rt rd => Sys2Proof.Machine.execMul rs rt rd s
  | .xor rs rt rd => Sys2Proof.Machine.execXor rs rt rd s
  | .or rs rt rd => Sys2Proof.Machine.execOr rs rt rd s
  | .and rs rt rd => Sys2Proof.Machine.execAnd rs rt rd s
  | .slt rs rt rd => Sys2Proof.Machine.execSlt rs rt rd s
  | .jr rs => Sys2Proof.Machine.execJr rs s
  | .lockon rs rt rd => Sys2Proof.Machine.execLockon rs rt rd s
  | .shieldup rs => Sys2Proof.Machine.execShieldup rs s
  | .transam rs rd => Sys2Proof.Machine.execTransam rs rd s
  | .deploybits rs rt rd => Sys2Proof.Machine.execDeploybits rs rt rd s
  | .energize rs => Sys2Proof.Machine.execEnergize rs s
  | .boost rs rd => Sys2Proof.Machine.execBoost rs rd s
  | .syscall => Sys2Proof.Machine.execSyscall s
  | .beq rs rt imm => Sys2Proof.Machine.execBeq rs rt imm s
  | .bne rs rt imm => Sys2Proof.Machine.execBne rs rt imm s
  | .addi rs rt imm => Sys2Proof.Machine.execAddi rs rt imm s
  | .lw rs rt imm => Sys2Proof.Machine.execLw rs rt imm s
  | .cbeq rs rt imm => Sys2Proof.Machine.execCbeq rs rt imm s
  | .thrust rs rt imm => Sys2Proof.Machine.execThrust rs rt imm s
  | .scan rt imm => Sys2Proof.Machine.execScan rt imm s
  | .j target => Sys2Proof.Machine.execJ target s
  | .call target => Sys2Proof.Machine.execCall target s
  | .callbase target => Sys2Proof.Machine.execCallbase target s
  | .autoevade target => Sys2Proof.Machine.execAutoevade target s

end Sys2Proof.Machine
end

