-- ==== Sys2Proof/Machine/Fetch.lean ====
section
/-! DEFINITION. The host's fetch and decode, as the step wrapper of 70_reset_and_hazards.md R163 has them. -/

namespace Sys2Proof.Machine

/-- `IMEM(pc)`: the instruction word at the pc, where IMEM is defined (R163, R164 c). -/
def State.fetchWord (s : State) : Option Word := s.imem.readWord s.params.byteOrder s.pc

/-- Fetch and decode under an ENC, which is an argument and no state (R26, R5), in the order of R147: a misaligned pc, the
end of the program, a word that matches no template. -/
def fetch (e : Enc) (s : State) : Except Result Instr :=
  if aligned s.pc then
    match s.fetchWord with
    | none => .error (.refused (.endOfProgram s.pc))
    | some w =>
      match decodeWord e w with
      | .ok i => .ok i
      | .error _ => .error (raise (.illegalInstruction w))
  else .error (raise (.fetchMisaligned s.pc))

/-- Load an instruction word where the next fetch reads it; a misaligned pc is first cleared of its low bits (log 29). -/
def State.loadAtPc (s : State) (w : Word) : State :=
  let pc := s.pc &&& 0xFFFFFFFC
  { s with pc := pc, imem := s.imem.writeWord s.params.byteOrder pc w }

end Sys2Proof.Machine
end

