-- ==== Sys2Proof/Machine/Step.lean ====
section
/-! DEFINITION. One step of the whole machine, host loop included (70_reset_and_hazards.md R163). -/

namespace Sys2Proof.Machine

/-- Fetch, decode under an ENC, execute; exec holds the host's advance (log 13). ENC is an argument of the model (R5, D3)
and constant over a run (R26). -/
def stepWith (e : Enc) (s : State) : Host.Outcome State Fault Refusal :=
  match fetch e s with
  | .ok i => exec i s
  | .error r => r

/-- The step under the spec's default catalog, ENC_SPEC (R50; D3, log 14). -/
def step (s : State) : Host.Outcome State Fault Refusal := stepWith encSpec s

/-- The state with an instruction word of the table's numbering loaded where the next step fetches it (log 4). -/
def State.withFetchWord (s : State) (nbits w : Nat) : State := s.loadAtPc (BitVec.ofNat 32 (w % 2 ^ nbits))

end Sys2Proof.Machine
end

