-- ==== Sys2Proof/WellFormed.lean ====
section
/-! DEFINITION. The checks on the open parameters that the spec states: R49's constraints on ENC and R144's on
FAULT_CODE. An instruction needs no check: every field value of every operand is legal (10_state.md R14, 30_encoding.md
R46), and the operand types of Instr admit exactly those. -/

namespace Sys2Proof

/-- The functs of the 15 R-format instructions. -/
def Enc.rCodes (e : Enc) : List (BitVec 6) :=
  [e.add, e.sub, e.mul, e.xor, e.or, e.and, e.slt, e.jr, e.lockon, e.shieldup, e.transam, e.deploybits, e.energize,
    e.boost, e.syscall]

/-- The opcodes of the 11 I- and J-format instructions. -/
def Enc.ijCodes (e : Enc) : List (BitVec 6) :=
  [e.beq, e.bne, e.addi, e.lw, e.cbeq, e.thrust, e.scan, e.j, e.call, e.callbase, e.autoevade]

/-- R49: "no instruction ever aliases another's opcode/funct combination", within the R-format group. -/
abbrev Enc.functsDistinct (e : Enc) : Prop := e.rCodes.Nodup

/-- R49: the same among the I- and J-format opcodes. -/
abbrev Enc.opcodesDistinct (e : Enc) : Prop := e.ijCodes.Nodup

/-- R49: I- and J-format opcodes are not 000000. -/
abbrev Enc.opcodesNonzero (e : Enc) : Prop := (0 : BitVec 6) ∉ e.ijCodes

/-- Every constraint R49 puts on an ENC. -/
abbrev Enc.wf (e : Enc) : Prop := e.functsDistinct ∧ e.opcodesDistinct ∧ e.opcodesNonzero

/-- R144: FAULT_CODE is injective on the four kinds. -/
abbrev FaultCodes.wf (c : FaultCodes) : Prop :=
  [c.arithmeticOverflow, c.divideByZero, c.addressFault, c.syscallFault].Nodup

/-- The open parameters of the state meet the constraint the spec puts on them; ENC has its own, Enc.wf. -/
abbrev Params.wf (p : Params) : Prop := p.faultCode.wf

end Sys2Proof
end

