-- ==== Sys2Proof/Safety.lean ====
section
/-! DEFINITION. The terms the claims use: a well-formed state, what an instruction leaves unchanged, and how a run may
end (70_reset_and_hazards.md R164). -/

namespace Sys2Proof.Machine

/-- A well-formed state: both memories in canonical form and FAULT_CODE within R144's constraint; ENC is no state
(R26) and has Enc.wf (R49). -/
abbrev State.wf (s : State) : Prop := s.mem.wf ∧ s.imem.wf ∧ s.params.wf

/-- t is s but for the pc and the registers listed: every other register, every byte of both memories, and every other
field is as it was. -/
def SameOutside (written : List Reg) (s t : State) : Prop :=
  (∀ r, r ∉ written → t.readReg r = s.readReg r) ∧ (∀ a, t.mem.read a = s.mem.read a) ∧
    (∀ a, t.imem.read a = s.imem.read a) ∧ t.handler = s.handler ∧ t.answers = s.answers ∧ t.draws = s.draws ∧
    t.params = s.params

/-- SR as the write of v to the destination field d left it: v itself when d is 27, else the old SR (R62 step 3,
R63 a; log 21). -/
def srAfterWrite (s : State) (d : Reg) (v : Word) : Word := if d = srReg then v else s.readReg srReg

/-- Zero and Negative of `after` are derived from v (R66). -/
def ZnOf (v after : Word) : Prop :=
  after.getLsbD 0 = decide (v.toNat = 0) ∧ after.getLsbD 1 = decide (v.toInt < 0)

/-- Every bit of SR but those listed is as in `before` (R17, R18). -/
def BitsKept (owned : List Nat) (before after : Word) : Prop :=
  ∀ k, k ∉ owned → after.getLsbD k = before.getLsbD k

/-- What an instruction did that wrote v to the destination field d and then updated Zero and Negative from v (R62,
R66): the destination holds v, unless it is SR; SR is what the write left it but for Zero, Negative and the `owned` bits;
the pc advanced; everything else is as it was. -/
def WroteWithZN (owned : List Nat) (d : Reg) (v : Word) (s t : State) : Prop :=
  (d ≠ srReg → t.readReg d = v) ∧ ZnOf v (t.readReg srReg) ∧
    BitsKept (0 :: 1 :: owned) (srAfterWrite s d v) (t.readReg srReg) ∧ t.pc = s.pc + 4 ∧ SameOutside [d, srReg] s t

/-- The exact result fits in a signed 32-bit word, -2^31 to 2^31 - 1 (R70, R71). -/
abbrev fits (n : Int) : Prop := -2147483648 ≤ n ∧ n < 2147483648

/-- The instructions R21 says can redirect control by themselves. -/
def transfers : List Mnemonic := [.beq, .bne, .cbeq, .jr, .j, .call, .callbase, .autoevade]

/-- The instructions that write SR by role (R16). -/
def flagWriters : List Mnemonic :=
  [.lw, .lockon, .shieldup, .transam, .deploybits, .thrust, .scan, .boost, .callbase]

/-- A run's good ends (R164 b, c): the end of the program, or the host ended the run. A fault is none of them. -/
def goodEnd : Result → Bool
  | .refused (.endOfProgram _) => true
  | .refused (.runEndedByHost _ _) => true
  | _ => false

end Sys2Proof.Machine
end

