-- ==== Sys2Proof/Certificates/Slice0/Obligations.lean ====
section
/-! DEFINITION. The statements for the provers. "The model's choice" names what the spec marks as its own decision
(92_eei_decisions.md) or leaves to the model, with the log entry. -/

open Sys2Proof Sys2Proof.Machine

/-! ## The register file, reset, the step -/

/-- R11, R14: a register reads back as written, register 0 too, and a write changes nothing else. -/
def Obligations.RegisterFileReadsBackWrites : Prop :=
  ∀ (s : State) (q r : Reg) (v : Word),
    (s.writeReg r v).readReg q = (if q = r then v else s.readReg q) ∧ (s.writeReg 0 v).readReg 0 = v ∧
      (s.writeReg r v).pc = s.pc ∧ SameOutside [r] s (s.writeReg r v)

/-- The state after reset meets the invariant of EveryStepKeepsStateWellFormed, its pc is aligned (the premise on INIT,
10_state.md section 5), ENC_SPEC meets the spec's constraints on an ENC, and two parameters have the spec's defaults. All of
these values are choices of the model: ENC_SPEC (log 14), BT_REGION at reset (log 16), 0x80000000 for DIV_MIN_NEG1 at reset
(log 17), and the other values at reset (log 1 to 10). -/
def Obligations.ResetStateIsWellFormed : Prop :=
  State.reset.wf ∧ aligned State.reset.pc ∧ encSpec.wf ∧
    State.reset.params.branchConv = .region ∧ State.reset.params.divMinNeg1 = 0x80000000

/-- Every step, under every ENC and so the step of ENC_SPEC, keeps both memories in canonical form and FAULT_CODE within the
spec's constraint. -/
def Obligations.EveryStepKeepsStateWellFormed : Prop :=
  ∀ (e : Enc) (s t : State), s.wf → (stepWith e s = .next t ∨ (e = encSpec ∧ step s = .next t)) → t.wf

/-- Under every ENC, IMEM is constant over a run, and so are the parameters held in the state; a handler that changes IMEM is refused (the model's
choice D24, log 5, log 11). -/
def Obligations.StepsKeepImemAndParameters : Prop :=
  (∀ (e : Enc) (s t : State), (stepWith e s = .next t ∨ (e = encSpec ∧ step s = .next t)) →
    t.imem = s.imem ∧ t.params = s.params) ∧
    ∀ s : State, hostAnswer s = .changesImem → exec .syscall s = .refused (.imemChanged (callNumber s))

/-- R33: no instruction but SYSCALL changes data memory, and SYSCALL does only where the host's handler writes it. The
host's word read and word write are fallible with an addressing fault, and no instruction issues the write. -/
def Obligations.OnlySyscallChangesDataMemory : Prop :=
  (∀ (i : Instr) (s t : State), i ≠ .syscall → exec i s = .next t →
    (∀ a, t.mem.read a = s.mem.read a) ∧ ∀ addr, t.memRead addr = s.memRead addr) ∧
  (∀ s t : State, exec .syscall s = .next t →
    ∃ e, hostAnswer s = .returned e ∧
      ∀ a, (∀ w ∈ e.memWrites, w.1.toNat ≠ a) → t.mem.read a = s.mem.read a) ∧
  ∀ (s : State) (addr v : Word),
    (s.memRead addr = .error (.addressFault addr) ∨ ∃ w, s.memRead addr = .ok w) ∧
    (s.memWrite addr v = .error (.addressFault addr) ∨ ∃ m, s.memWrite addr v = .ok (s.setMem m))

/-- When the word at an aligned pc decodes to i, a step is exec of i at that state, under every ENC; exec holds the host's
advance (the model's choice, log 13). The machine's step is the one of ENC_SPEC (the model's choice D3, log 14), so that a
statement about stepWith and every ENC is one about step. -/
def Obligations.StepRunsTheDecodedInstruction : Prop :=
  (∀ (e : Enc) (s : State) (w : Word) (i : Instr), aligned s.pc → s.fetchWord = some w → decodeWord e w = .ok i →
    stepWith e s = exec i s) ∧
  (∀ s : State, step s = stepWith encSpec s) ∧
  ∀ (s : State) (w : Word) (i : Instr), aligned s.pc → s.fetchWord = some w → decodeWord encSpec w = .ok i →
    step s = exec i s

/-- Where a step under an ENC runs no instruction: a misaligned pc, the end of the program, a word that matches no template,
in this order (the model's choice D21, D22, D24; log 4, log 19). -/
def Obligations.StepStopsBeforeAnInstruction : Prop :=
  ∀ (e : Enc) (s : State),
    (¬ aligned s.pc → stepWith e s = .fault (.fetchMisaligned s.pc)) ∧
    (aligned s.pc → s.fetchWord = none → stepWith e s = .refused (.endOfProgram s.pc)) ∧
    ∀ w r, aligned s.pc → s.fetchWord = some w → decodeWord e w = .error r →
      stepWith e s = .fault (.illegalInstruction w)

/-- Under every ENC a run ends without a fault exactly at the end of the program or where the host ends it at a SYSCALL (the model's
choice D24, log 4, log 27). -/
def Obligations.RunEndsWellExactlyAtItsEnds : Prop :=
  ∀ (e : Enc) (s : State), goodEnd (stepWith e s) = true ↔
    (aligned s.pc ∧ s.fetchWord = none) ∨
    (aligned s.pc ∧ ∃ w left, s.fetchWord = some w ∧ decodeWord e w = .ok .syscall ∧ hostAnswer s = .endsRun left)

/-- A word loaded with withFetchWord is the word the next step runs, under every ENC. The load clears the pc's two low bits
and changes nothing else but the four bytes of instruction memory there: an aligned pc, every register, all of data memory,
every other byte of instruction memory and every other field are as they were (the model's choice, log 4, log 29). -/
def Obligations.LoadedWordIsTheNextInstruction : Prop :=
  ∀ (e : Enc) (s u : State) (w : Nat) (i : Instr), u = s.withFetchWord 32 w → w < 2 ^ 32 →
    decodeWord e (BitVec.ofNat 32 w) = .ok i →
    stepWith e u = exec i u ∧ u.pc = s.pc &&& 0xFFFFFFFC ∧ (aligned s.pc → u.pc = s.pc) ∧
      (∀ r, u.readReg r = s.readReg r) ∧ (∀ a, u.mem.read a = s.mem.read a) ∧
      (∀ a, a < u.pc.toNat ∨ u.pc.toNat + 4 ≤ a → u.imem.read a = s.imem.read a) ∧
      u.handler = s.handler ∧ u.answers = s.answers ∧ u.draws = s.draws ∧ u.params = s.params

/-! ## Encoding -/

/-- For every ENC within R49's constraints and every instruction, with every operand: decoding the encoded word gives the
instruction back. -/
def Obligations.DecodeUndoesEncode : Prop :=
  ∀ e : Enc, e.wf → ∀ i : Instr, decodeWord e (encodeWord e i) = .ok i

/-- A word has one meaning: what it decodes to is encoded as that word. -/
def Obligations.EncodeUndoesDecode : Prop :=
  ∀ (e : Enc) (w : Word) (i : Instr), decodeWord e w = .ok i → encodeWord e i = w

/-- Decoding by fields agrees with the opcode table's match and mask under ENC_SPEC (the model's choice D3, log 14), and
at most one row selects any word. -/
def Obligations.DecoderAgreesWithTheOpcodeTable : Prop :=
  (∀ (w : Word) (m : Mnemonic), (∃ i, decodeWord encSpec w = .ok i ∧ i.mnemonic = m) ↔ m.selectedBy w) ∧
    ∀ (w : Word) (m n : Mnemonic), m.selectedBy w → n.selectedBy w → m = n

/-- The spec's decoding vectors E1 to E13 (95_test_vectors.md) under ENC_SPEC (the model's choice D3, D4; log 14, 15). -/
def Obligations.SpecDecodingVectors : Prop :=
  decodeWord encSpec 0x03FFF801 = .ok (.add 31 31 31) ∧ decodeWord encSpec 0x0C22FF9C = .ok (.addi 1 2 0xFF9C) ∧
  decodeWord encSpec 0x2BFFFFFF = .ok (.callbase 0x3FFFFFF) ∧ decodeWord encSpec 0x0020D80E = .ok (.boost 1 27) ∧
  decodeWord encSpec 0x1C1B0002 = .ok (.scan 27 2) ∧ decodeWord encSpec 0x00000000 = .error (.unknownFunct 0) ∧
  decodeWord encSpec 0x00221841 = .error (.unusedFieldNotZero .add) ∧
  decodeWord encSpec 0x00220008 = .error (.unusedFieldNotZero .jr) ∧
  decodeWord encSpec 0x0001000F = .error (.unusedFieldNotZero .syscall) ∧
  decodeWord encSpec 0x1C220000 = .error (.unusedFieldNotZero .scan) ∧
  decodeWord encSpec 0x30000000 = .error (.unknownOpcode 0b001100) ∧
  decodeWord encSpec 0x00000010 = .error (.unknownFunct 0b010000) ∧
  decodeWord encSpec 0xFFFFFFFF = .error (.unknownOpcode 0b111111)

/-! ## Memory -/

/-- The host's word write and word read, in either byte order: the word reads back, every other word reads as before, and
the canonical form is kept. Byte addresses, alignment and byte order are the model's choice D17 (log 3, 7, 26, 28). -/
def Obligations.DataWordReadsBackAsWritten : Prop :=
  ∀ (s t : State) (addr v : Word), s.memWrite addr v = .ok t →
    t.memRead addr = .ok v ∧ (∀ other, other ≠ addr → t.memRead other = s.memRead other) ∧ (s.mem.wf → t.mem.wf)

/-- Where a data read answers a word and where it faults: on every misaligned address and on every word that is not
wholly listed (the model's choice D17, log 3, log 26). -/
def Obligations.DataReadFaultsExactlyOnMemFault : Prop :=
  ∀ (s : State) (addr : Word),
    (¬ aligned addr → s.memFault addr = true) ∧
    (s.memFault addr = true → s.memRead addr = .error (.addressFault addr)) ∧
    (s.memFault addr = false → ∃ v, s.mem.readWord s.params.byteOrder addr = some v ∧ s.memRead addr = .ok v)

/-! ## Flags -/

/-- R64, R65: the nine flags are bits 0 to 8 of register 27; SetFlag gives its bit its value and leaves the 31 other bits,
and everything else, as they were. -/
def Obligations.SetFlagChangesOneBit : Prop :=
  (Flag.zero.bit = 0 ∧ Flag.negative.bit = 1 ∧ Flag.carry.bit = 2 ∧ Flag.overflow.bit = 3 ∧ Flag.shield.bit = 4 ∧
    Flag.lockon.bit = 5 ∧ Flag.transam.bit = 6 ∧ Flag.danger.bit = 7 ∧ Flag.callbase.bit = 8) ∧
  ∀ (s : State) (f : Flag) (val : Bool),
    s.getFlag f = (s.readReg 27).getLsbD f.bit ∧ (s.setFlag f val).getFlag f = val ∧
      BitsKept [f.bit] (s.readReg 27) ((s.setFlag f val).readReg 27) ∧ (s.setFlag f val).pc = s.pc ∧
      SameOutside [27] s (s.setFlag f val)

/-- R66: UpdateZN sets Zero iff the value is 0 and Negative iff it is negative, never both, and leaves bits 31:2, and
everything else, as they were. -/
def Obligations.UpdateZnDerivesBothBits : Prop :=
  ∀ (s : State) (v : Word),
    ZnOf v ((s.updateZN v).readReg 27) ∧
      ¬ ((s.updateZN v).getFlag .zero = true ∧ (s.updateZN v).getFlag .negative = true) ∧
      BitsKept [0, 1] (s.readReg 27) ((s.updateZN v).readReg 27) ∧ (s.updateZN v).pc = s.pc ∧
      SameOutside [27] s (s.updateZN v)

/-- R17: SetFlag of a flag the catalog writes, UpdateZN, and every instruction whose destination field is not 27 leave
Carry, Overflow and bits 31:9 of SR as they were. SYSCALL is left out: its handler writes what it likes. -/
def Obligations.ReservedStatusBitsAreKept : Prop :=
  ∀ k : Nat, k = 2 ∨ k = 3 ∨ 9 ≤ k →
    (∀ (s : State) (f : Flag) (val : Bool), f ≠ .carry → f ≠ .overflow →
      ((s.setFlag f val).readReg 27).getLsbD k = (s.readReg 27).getLsbD k) ∧
    (∀ (s : State) (v : Word), ((s.updateZN v).readReg 27).getLsbD k = (s.readReg 27).getLsbD k) ∧
    ∀ (i : Instr) (s t : State), i ≠ .syscall → i.dest? ≠ some 27 → exec i s = .next t →
      (t.readReg 27).getLsbD k = (s.readReg 27).getLsbD k

/-- No instruction sets DANGER by role and none clears CALLBASE by role: only a write by field to register 27 (or the
host's handler) can. -/
def Obligations.DangerIsNeverSetNorCallbaseClearedByRole : Prop :=
  ∀ (i : Instr) (s t : State), i ≠ .syscall → i.dest? ≠ some 27 → exec i s = .next t →
    (t.getFlag .danger = true → s.getFlag .danger = true) ∧ (s.getFlag .callbase = true → t.getFlag .callbase = true)

/-! ## The arithmetic unit -/

/-- R70: the sign test holds exactly when the exact sum does not fit; then CheckedAdd faults, and otherwise it gives the
wrapped sum, which is the exact one. -/
def Obligations.CheckedAddFaultsExactlyOnOverflow : Prop :=
  ∀ a b : Word,
    ((a.msb = b.msb ∧ (a + b).msb ≠ a.msb) ↔ ¬ fits (a.toInt + b.toInt)) ∧
    (fits (a.toInt + b.toInt) → checkedAdd a b = .ok (a + b) ∧ (a + b).toInt = a.toInt + b.toInt) ∧
    (¬ fits (a.toInt + b.toInt) → checkedAdd a b = .error .arithmeticOverflow)

/-- R71: the same for CheckedSub. -/
def Obligations.CheckedSubFaultsExactlyOnOverflow : Prop :=
  ∀ a b : Word,
    ((a.msb ≠ b.msb ∧ (a - b).msb = b.msb) ↔ ¬ fits (a.toInt - b.toInt)) ∧
    (fits (a.toInt - b.toInt) → checkedSub a b = .ok (a - b) ∧ (a - b).toInt = a.toInt - b.toInt) ∧
    (¬ fits (a.toInt - b.toInt) → checkedSub a b = .error .arithmeticOverflow)

/-- R72: TruncMul is the low 32 bits of the exact product, whether the operands are read as signed or as unsigned. It
answers a word for every pair, so it never faults. -/
def Obligations.TruncMulKeepsTheLowWord : Prop :=
  ∀ a b : Word,
    ((truncMul a b).toNat : Int) = (a.toInt * b.toInt) % 2 ^ 32 ∧ (truncMul a b).toNat = a.toNat * b.toNat % 2 ^ 32

/-- CheckedDiv faults exactly on a zero divisor and rounds toward zero; the one quotient that does not fit is the
parameter DIV_MIN_NEG1 (the model's choice D15, log 17). -/
def Obligations.CheckedDivRoundsTowardZero : Prop :=
  ∀ p a b : Word,
    (b = 0 → checkedDiv p a b = .error .divideByZero) ∧
    (a = 0x80000000 → b = 0xFFFFFFFF → checkedDiv p a b = .ok p) ∧
    (b ≠ 0 → ¬ (a = 0x80000000 ∧ b = 0xFFFFFFFF) →
      ∃ q, checkedDiv p a b = .ok q ∧ q.toInt = a.toInt.tdiv b.toInt)

/-- R76, R78: Slt compares the exact signed values; Shl1 drops bit 31 and is the low word of twice the value. -/
def Obligations.SltAndShl1AreExact : Prop :=
  ∀ a b : Word,
    (a.toInt < b.toInt → slt a b = 1) ∧ (b.toInt ≤ a.toInt → slt a b = 0) ∧
      shl1 a = a.extractLsb' 0 31 ++ (0 : BitVec 1) ∧ ((shl1 a).toNat : Int) = 2 * a.toInt % 2 ^ 32

/-! ## The control-flow unit -/

/-- R80: a jump target is the pc's top four bits, the field, and two zero bits. -/
def Obligations.JumpTargetKeepsTheRegion : Prop :=
  ∀ (pc : Word) (t : Target26), jumpTarget pc t = pc.extractLsb' 28 4 ++ t ++ (0 : BitVec 2) ∧ aligned (jumpTarget pc t)

/-- The two named branch conventions compute what the spec writes, and every convention keeps an aligned pc aligned; the
convention is a parameter (the model's choice D7, log 16). -/
def Obligations.BranchTargetFollowsItsConvention : Prop :=
  ∀ (pc : Word) (f : Imm16),
    branchTarget .region pc f = pc.extractLsb' 28 4 ++ (0 : BitVec 10) ++ f ++ (0 : BitVec 2) ∧
    ((branchTarget .relative pc f).toNat : Int) = (pc.toNat + 4 + 4 * f.toInt) % 2 ^ 32 ∧
    ∀ c, aligned pc → aligned (branchTarget c pc f)

/-- From an aligned pc every instruction but JR and SYSCALL leaves an aligned pc, and JR does exactly when its register
is aligned (the model's choice D21: a misaligned pc is reached and then faults, log 19). -/
def Obligations.OnlyJumpRegisterMisalignsThePc : Prop :=
  (∀ (i : Instr) (s t : State), aligned s.pc → i ≠ .syscall → i.mnemonic ≠ .jr → exec i s = .next t → aligned t.pc) ∧
    ∀ (rs : Reg) (s t : State), exec (.jr rs) s = .next t → (aligned t.pc ↔ aligned (s.readReg rs))

/-- Under every ENC, every step that runs neither JR nor SYSCALL leaves an aligned pc; SYSCALL does unless the host's handler
redirects (log 13). -/
def Obligations.StepsKeepThePcAligned : Prop :=
  ∀ (enc : Enc) (s t : State), (stepWith enc s = .next t ∨ (enc = encSpec ∧ step s = .next t)) → aligned t.pc ∨
    (∃ w rs, s.fetchWord = some w ∧ decodeWord enc w = .ok (.jr rs) ∧ t.pc = s.readReg rs) ∨
    (∃ w e a, s.fetchWord = some w ∧ decodeWord enc w = .ok .syscall ∧ hostAnswer s = .returned e ∧
      e.redirect = some a ∧ t.pc = a)

/-- The instructions that can redirect are the eight control transfers (and SYSCALL's handler): every other one is
followed by pc + 4, modulo 2^32 (the model's choice D8, log 13, log 33). -/
def Obligations.OnlyTransfersRedirect : Prop :=
  ∀ (i : Instr) (s t : State), i ≠ .syscall → i.mnemonic ∉ transfers → exec i s = .next t → t.pc = s.pc + 4

/-! ## Whole-machine rules -/

/-- A register changes only where an instruction's destination field names it or the instruction writes it by role:
LINK by CALL and CALLBASE, EN by TRANSAM and ENERGIZE, SR by the flag writers; MS never by role. SYSCALL's handler is
left out. -/
def Obligations.RegistersChangeOnlyByFieldOrRole : Prop :=
  ∀ (i : Instr) (s t : State) (r : Reg), i ≠ .syscall → exec i s = .next t → t.readReg r ≠ s.readReg r →
    i.dest? = some r ∨ (r = 7 ∧ i.mnemonic ∈ [.call, .callbase]) ∨ (r = 25 ∧ i.mnemonic ∈ [.transam, .energize]) ∨
      (r = 27 ∧ i.mnemonic ∈ flagWriters)

/-- Which instruction raises which fault, and when: the rows (a) to (d) of the fault table. ArithmeticOverflow comes from an
ADD, SUB or ADDI whose exact result does not fit, DivideByZero from a DEPLOYBITS by zero, AddressFault from an LW whose
address MEM_FAULT refuses, SyscallFault from a SYSCALL whose handler signals it. -/
def Obligations.FaultsComeOnlyFromTheirInstructions : Prop :=
  ∀ (i : Instr) (s : State) (f : Fault), exec i s = .fault f →
    (f = .arithmeticOverflow ∧
      ((∃ rs rt rd, i = .add rs rt rd ∧ ¬ fits ((s.readReg rs).toInt + (s.readReg rt).toInt)) ∨
        (∃ rs rt rd, i = .sub rs rt rd ∧ ¬ fits ((s.readReg rs).toInt - (s.readReg rt).toInt)) ∨
        ∃ rs rt imm, i = .addi rs rt imm ∧ ¬ fits ((s.readReg rs).toInt + imm.toInt))) ∨
    (f = .divideByZero ∧ ∃ rs rt rd, i = .deploybits rs rt rd ∧ s.readReg rt = 0) ∨
    (∃ rs rt imm, i = .lw rs rt imm ∧ f = .addressFault (s.readReg rs + sext32 imm) ∧
      s.memFault (s.readReg rs + sext32 imm) = true) ∨
    (∃ info left, i = .syscall ∧ f = .syscallFault info left ∧ hostAnswer s = .fault info left)

/-- No instruction is refused but SYSCALL, and SYSCALL only where the host ends the run or changed IMEM (the model's choice
D24, log 11, log 27). -/
def Obligations.OnlySyscallIsRefused : Prop :=
  ∀ (i : Instr) (s : State) (r : Refusal), exec i s = .refused r → i = .syscall ∧
    ((∃ left, r = .runEndedByHost (callNumber s) left ∧ hostAnswer s = .endsRun left) ∨
      (r = .imemChanged (callNumber s) ∧ hostAnswer s = .changesImem))

/-- The reason codes of the four kinds differ pairwise under every FAULT_CODE within the spec's constraint (the model's
choice D18, log 8). -/
def Obligations.ReasonCodesTellTheKindsApart : Prop :=
  ∀ (c : FaultCodes) (addr : Word) (info : Int) (left : HostEffect), c.wf →
    reasonCode c .arithmeticOverflow ≠ reasonCode c .divideByZero ∧
    reasonCode c .arithmeticOverflow ≠ reasonCode c (.addressFault addr) ∧
    reasonCode c .arithmeticOverflow ≠ reasonCode c (.syscallFault info left) ∧
    reasonCode c .divideByZero ≠ reasonCode c (.addressFault addr) ∧
    reasonCode c .divideByZero ≠ reasonCode c (.syscallFault info left) ∧
    reasonCode c (.addressFault addr) ≠ reasonCode c (.syscallFault info left)

/-- LW alone reads data memory and no instruction reads IMEM (SYSCALL's handler apart): with other contents there, an
instruction does the same and leaves those contents. -/
def Obligations.OnlyLoadsSeeDataMemory : Prop :=
  ∀ (i : Instr) (s : State) (m : Memory), i ≠ .syscall →
    (i.mnemonic ≠ .lw → ∀ t, exec i s = .next t → exec i (s.setMem m) = .next (t.setMem m)) ∧
    (i.mnemonic ≠ .lw → ∀ f, exec i s = .fault f → exec i (s.setMem m) = .fault f) ∧
    (∀ t, exec i s = .next t → exec i (s.setImem m) = .next (t.setImem m)) ∧
    ∀ f, exec i s = .fault f → exec i (s.setImem m) = .fault f

/-! ## Results, completion and frames: arithmetic, logic, compare -/

/-- ADD: where the exact sum fits, rd holds it and nothing else changes but the pc; otherwise it faults. -/
def Obligations.AddResultOrOverflow : Prop :=
  ∀ (s : State) (rs rt rd : Reg),
    (fits ((s.readReg rs).toInt + (s.readReg rt).toInt) →
      ∃ t, exec (.add rs rt rd) s = .next t ∧ (t.readReg rd).toInt = (s.readReg rs).toInt + (s.readReg rt).toInt ∧
        t.pc = s.pc + 4 ∧ SameOutside [rd] s t) ∧
    (¬ fits ((s.readReg rs).toInt + (s.readReg rt).toInt) → exec (.add rs rt rd) s = .fault .arithmeticOverflow)

/-- SUB: as ADD, of the exact difference. -/
def Obligations.SubResultOrOverflow : Prop :=
  ∀ (s : State) (rs rt rd : Reg),
    (fits ((s.readReg rs).toInt - (s.readReg rt).toInt) →
      ∃ t, exec (.sub rs rt rd) s = .next t ∧ (t.readReg rd).toInt = (s.readReg rs).toInt - (s.readReg rt).toInt ∧
        t.pc = s.pc + 4 ∧ SameOutside [rd] s t) ∧
    (¬ fits ((s.readReg rs).toInt - (s.readReg rt).toInt) → exec (.sub rs rt rd) s = .fault .arithmeticOverflow)

/-- ADDI: as ADD, of x[rs] and the signed immediate, into rt (the model's choice D5, log 30). -/
def Obligations.AddiResultOrOverflow : Prop :=
  ∀ (s : State) (rs rt : Reg) (imm : Imm16),
    (fits ((s.readReg rs).toInt + imm.toInt) →
      ∃ t, exec (.addi rs rt imm) s = .next t ∧ (t.readReg rt).toInt = (s.readReg rs).toInt + imm.toInt ∧
        t.pc = s.pc + 4 ∧ SameOutside [rt] s t) ∧
    (¬ fits ((s.readReg rs).toInt + imm.toInt) → exec (.addi rs rt imm) s = .fault .arithmeticOverflow)

/-- MUL: rd holds the low word of the exact product, in every state; nothing else changes but the pc. -/
def Obligations.MulResult : Prop :=
  ∀ (s : State) (rs rt rd : Reg), ∃ t, exec (.mul rs rt rd) s = .next t ∧
    ((t.readReg rd).toNat : Int) = (s.readReg rs).toInt * (s.readReg rt).toInt % 2 ^ 32 ∧
    t.pc = s.pc + 4 ∧ SameOutside [rd] s t

/-- R75: XOR, OR and AND work bit by bit over all 32 bits, never fault and touch no flag; XOR undoes itself, and AND with
all ones and OR with zero are identities. -/
def Obligations.BitwiseResults : Prop :=
  (∀ (s : State) (rs rt rd : Reg),
    (∃ t, exec (.xor rs rt rd) s = .next t ∧
      (∀ k, (t.readReg rd).getLsbD k = ((s.readReg rs).getLsbD k ^^ (s.readReg rt).getLsbD k)) ∧
      t.pc = s.pc + 4 ∧ SameOutside [rd] s t) ∧
    (∃ t, exec (.or rs rt rd) s = .next t ∧
      (∀ k, (t.readReg rd).getLsbD k = ((s.readReg rs).getLsbD k || (s.readReg rt).getLsbD k)) ∧
      t.pc = s.pc + 4 ∧ SameOutside [rd] s t) ∧
    (∃ t, exec (.and rs rt rd) s = .next t ∧
      (∀ k, (t.readReg rd).getLsbD k = ((s.readReg rs).getLsbD k && (s.readReg rt).getLsbD k)) ∧
      t.pc = s.pc + 4 ∧ SameOutside [rd] s t)) ∧
  (∀ (s : State) (rt rd : Reg), rt ≠ rd → ∃ t u, exec (.xor rd rt rd) s = .next t ∧ exec (.xor rd rt rd) t = .next u ∧
    u.readReg rd = s.readReg rd) ∧
  (∀ (s : State) (rt rd : Reg), s.readReg rt = 0xFFFFFFFF →
    ∃ t, exec (.and rd rt rd) s = .next t ∧ t.readReg rd = s.readReg rd) ∧
  ∀ (s : State) (rt rd : Reg), s.readReg rt = 0 → ∃ t, exec (.or rd rt rd) s = .next t ∧ t.readReg rd = s.readReg rd

/-- SLT: rd holds 1 or 0 by the exact signed comparison; nothing else changes but the pc. -/
def Obligations.SltResult : Prop :=
  ∀ (s : State) (rs rt rd : Reg), ∃ t, exec (.slt rs rt rd) s = .next t ∧
    ((s.readReg rs).toInt < (s.readReg rt).toInt → t.readReg rd = 1) ∧
    ((s.readReg rt).toInt ≤ (s.readReg rs).toInt → t.readReg rd = 0) ∧ t.pc = s.pc + 4 ∧ SameOutside [rd] s t

/-! ## Results, completion and frames: control transfer -/

/-- R82: BEQ and BNE redirect to the branch target exactly when their condition holds, and otherwise are followed by
pc + 4; they write no register. -/
def Obligations.BranchesRedirectOnTheirCondition : Prop :=
  ∀ (s : State) (rs rt : Reg) (imm : Imm16),
    (∃ t, exec (.beq rs rt imm) s = .next t ∧ SameOutside [] s t ∧
      (s.readReg rs = s.readReg rt → t.pc = branchTarget s.params.branchConv s.pc imm) ∧
      (s.readReg rs ≠ s.readReg rt → t.pc = s.pc + 4)) ∧
    (∃ t, exec (.bne rs rt imm) s = .next t ∧ SameOutside [] s t ∧
      (s.readReg rs ≠ s.readReg rt → t.pc = branchTarget s.params.branchConv s.pc imm) ∧
      (s.readReg rs = s.readReg rt → t.pc = s.pc + 4))

/-- CBEQ is an instruction of its own that does what BEQ does (the model's choice D11, log 25). -/
def Obligations.CompareEqualBranchResult : Prop :=
  ∀ (s : State) (rs rt : Reg) (imm : Imm16), ∃ t, exec (.cbeq rs rt imm) s = .next t ∧ SameOutside [] s t ∧
    (s.readReg rs = s.readReg rt → t.pc = branchTarget s.params.branchConv s.pc imm) ∧
    (s.readReg rs ≠ s.readReg rt → t.pc = s.pc + 4)

/-- R83: JR copies all 32 bits of its register to the pc and changes nothing else. -/
def Obligations.JumpRegisterIsVerbatim : Prop :=
  ∀ (s : State) (rs : Reg), ∃ t, exec (.jr rs) s = .next t ∧ t.pc = s.readReg rs ∧ SameOutside [] s t

/-- J redirects within the pc's region and changes nothing else. -/
def Obligations.JumpResult : Prop :=
  ∀ (s : State) (a : Target26), ∃ t, exec (.j a) s = .next t ∧
    t.pc = s.pc.extractLsb' 28 4 ++ a ++ (0 : BitVec 2) ∧ SameOutside [] s t

/-- CALL writes LINK and no flag; CALLBASE writes LINK and sets CALLBASE, no other bit; both redirect within the region
(the model's choice D10, log 24). -/
def Obligations.CallsLinkAndCallbaseMarks : Prop :=
  ∀ (s : State) (a : Target26),
    (∃ t, exec (.call a) s = .next t ∧ t.readReg 7 = s.pc + 4 ∧
      t.pc = s.pc.extractLsb' 28 4 ++ a ++ (0 : BitVec 2) ∧ SameOutside [7] s t) ∧
    (∃ t, exec (.callbase a) s = .next t ∧ t.readReg 7 = s.pc + 4 ∧ t.getFlag .callbase = true ∧
      BitsKept [8] (s.readReg 27) (t.readReg 27) ∧
      t.pc = s.pc.extractLsb' 28 4 ++ a ++ (0 : BitVec 2) ∧ SameOutside [7, 27] s t)

/-- A call and JR x7 come back to the instruction after the call, with LINK still holding its address (the model's choice
D10, log 24). -/
def Obligations.JumpRegisterReturnsFromCalls : Prop :=
  ∀ (s : State) (a : Target26),
    (∃ t u, exec (.call a) s = .next t ∧ exec (.jr 7) t = .next u ∧ u.pc = s.pc + 4 ∧
      u.readReg 7 = s.pc + 4 ∧ SameOutside [7] s u) ∧
    (∃ t u, exec (.callbase a) s = .next t ∧ exec (.jr 7) t = .next u ∧ u.pc = s.pc + 4 ∧
      u.readReg 7 = s.pc + 4 ∧ SameOutside [7, 27] s u ∧ u.getFlag .callbase = true)

/-- R85: AUTOEVADE jumps exactly when DANGER is set, writes no register and no flag, and does not clear DANGER. -/
def Obligations.AutoevadeJumpsOnDanger : Prop :=
  ∀ (s : State) (a : Target26), ∃ t, exec (.autoevade a) s = .next t ∧ SameOutside [] s t ∧
    ((s.readReg 27).getLsbD 7 = true → t.pc = s.pc.extractLsb' 28 4 ++ a ++ (0 : BitVec 2)) ∧
    ((s.readReg 27).getLsbD 7 = false → t.pc = s.pc + 4)

/-! ## Results, completion and frames: load, suit state, system -/

/-- LW: where the address is aligned and its word readable, rt holds the word and Zero and Negative come from it;
otherwise it faults with the address. rt as destination, misaligned faults and the order of writes are the model's
choice D5, D17, D9 (log 30, 26, 21). -/
def Obligations.LoadWordResultOrAddressFault : Prop :=
  ∀ (s : State) (rs rt : Reg) (imm : Imm16) (addr : Word), addr = s.readReg rs + imm.signExtend 32 →
    (∀ v, aligned addr → s.mem.readWord s.params.byteOrder addr = some v →
      ∃ t, exec (.lw rs rt imm) s = .next t ∧ WroteWithZN [] rt v s t) ∧
    (¬ aligned addr → exec (.lw rs rt imm) s = .fault (.addressFault addr)) ∧
    (s.mem.readWord s.params.byteOrder addr = none → exec (.lw rs rt imm) s = .fault (.addressFault addr))

/-- LOCKON: rd holds 1 or 0 by equality, Lock-on the same boolean, Zero and Negative from the value (order of writes: the
model's choice D9, log 21). -/
def Obligations.LockonResult : Prop :=
  ∀ (s : State) (rs rt rd : Reg) (v : Word), v = (if s.readReg rs = s.readReg rt then 1 else 0) →
    ∃ t, exec (.lockon rs rt rd) s = .next t ∧ WroteWithZN [5] rd v s t ∧
      (t.readReg 27).getLsbD 5 = decide (s.readReg rs = s.readReg rt)

/-- SHIELDUP: Shield is set by a non-zero register and cleared by a zero one (the model's choice D12, log 20); nothing
else changes but the pc. -/
def Obligations.ShieldupResult : Prop :=
  ∀ (s : State) (rs : Reg), ∃ t, exec (.shieldup rs) s = .next t ∧
    (t.readReg 27).getLsbD 4 = decide (s.readReg rs ≠ 0) ∧ BitsKept [4] (s.readReg 27) (t.readReg 27) ∧
    t.pc = s.pc + 4 ∧ SameOutside [27] s t

/-- TRANSAM: with a positive EN, rd is three times rs, EN goes down by one and Trans-am is set; otherwise rd is rs, EN
stays and Trans-am is cleared; Zero and Negative from the produced value. The order of writes when rd is 25 or 27 and the
signed, unchecked reading are the model's choice D9, D14 (log 21, 23). -/
def Obligations.TransamResult : Prop :=
  ∀ (s : State) (rs rd : Reg),
    (0 < (s.readReg 25).toInt → ∃ t v, exec (.transam rs rd) s = .next t ∧
      (v.toNat : Int) = 3 * (s.readReg rs).toInt % 2 ^ 32 ∧ (rd ≠ 25 → rd ≠ 27 → t.readReg rd = v) ∧
      t.readReg 25 = (if rd = 25 then v else s.readReg 25) - 1 ∧ (t.readReg 27).getLsbD 6 = true ∧
      ZnOf v (t.readReg 27) ∧ BitsKept [0, 1, 6] (srAfterWrite s rd v) (t.readReg 27) ∧ t.pc = s.pc + 4 ∧
      SameOutside [rd, 25, 27] s t) ∧
    (¬ 0 < (s.readReg 25).toInt → ∃ t, exec (.transam rs rd) s = .next t ∧
      WroteWithZN [6] rd (s.readReg rs) s t ∧ (t.readReg 27).getLsbD 6 = false)

/-- DEPLOYBITS: faults exactly on a zero divisor; otherwise rd holds the quotient rounded toward zero, Zero and Negative
come from it, and Danger is cleared when it is not zero and kept when it is. The quotient of -2^31 by -1 and the order
of writes are the model's choice D15, D9 (log 17, 21). -/
def Obligations.DeploybitsResultOrDivideByZero : Prop :=
  ∀ (s : State) (rs rt rd : Reg),
    (s.readReg rt = 0 → exec (.deploybits rs rt rd) s = .fault .divideByZero) ∧
    (s.readReg rt ≠ 0 → ∃ t q, exec (.deploybits rs rt rd) s = .next t ∧
      (s.readReg rs = 0x80000000 ∧ s.readReg rt = 0xFFFFFFFF → q = s.params.divMinNeg1) ∧
      (¬ (s.readReg rs = 0x80000000 ∧ s.readReg rt = 0xFFFFFFFF) →
        q.toInt = (s.readReg rs).toInt.tdiv (s.readReg rt).toInt) ∧
      WroteWithZN [7] rd q s t ∧
      (t.readReg 27).getLsbD 7 = (decide (q = 0) && (srAfterWrite s rd q).getLsbD 7))

/-- THRUST: rt holds x[rs] plus four times the signed immediate, modulo 2^32 and unchecked; Zero and Negative from it
(rt as destination and the order of writes: the model's choice D5, D9, log 30, 21). -/
def Obligations.ThrustResult : Prop :=
  ∀ (s : State) (rs rt : Reg) (imm : Imm16), ∃ t v, exec (.thrust rs rt imm) s = .next t ∧
    (v.toNat : Int) = ((s.readReg rs).toNat + 4 * imm.toInt) % 2 ^ 32 ∧ WroteWithZN [] rt v s t

/-- ENERGIZE copies x[rs] to EN; no flag and nothing else changes but the pc. -/
def Obligations.EnergizeResult : Prop :=
  ∀ (s : State) (rs : Reg), ∃ t, exec (.energize rs) s = .next t ∧ t.readReg 25 = s.readReg rs ∧ t.pc = s.pc + 4 ∧
    SameOutside [25] s t

/-- SCAN copies SR, EN or MS by the selectors 0, 1, 2 and gives 0 for every other field value; Zero and Negative from the
copy. The pairing, rt as destination and the order of writes are the model's choice D13, D5, D9 (log 22, 30, 21). -/
def Obligations.ScanResult : Prop :=
  ∀ (s : State) (rt : Reg) (imm : Imm16) (v : Word),
    v = (if imm = 0 then s.readReg 27 else if imm = 1 then s.readReg 25 else if imm = 2 then s.readReg 26 else 0) →
    ∃ t, exec (.scan rt imm) s = .next t ∧ WroteWithZN [] rt v s t

/-- BOOST: rd holds twice x[rs], modulo 2^32; Zero and Negative from it; no carry is recorded (order of writes: the model's
choice D9, log 21). -/
def Obligations.BoostResult : Prop :=
  ∀ (s : State) (rs rd : Reg), ∃ t v, exec (.boost rs rd) s = .next t ∧
    v.toNat = 2 * (s.readReg rs).toNat % 2 ^ 32 ∧ WroteWithZN [] rd v s t

/-- SYSCALL: where the host's handler returns, the state is what it left (the last write to a register or address stays)
and the pc is its redirect or pc + 4; where it signals a fault, ends the run or changed IMEM, SYSCALL stops so, each with
a name of its own. An answer listed in the state is the one taken (SYSCALL_EFFECT, SYSCALL_REG and the stops: the model's
choice D16, D24, log 6, 9, 11, 12, 27). -/
def Obligations.SyscallDoesWhatTheHostAnswers : Prop :=
  ∀ s : State,
    (∀ a rest, s.answers = a :: rest → hostAnswer s = a) ∧
    (∀ e, hostAnswer s = .returned e → ∃ t, exec .syscall s = .next t ∧
      (∀ r, t.readReg r = ((e.regWrites.reverse.find? (fun w => w.1 = r)).map (·.2)).getD (s.readReg r)) ∧
      (∀ a : Word, t.mem.read a.toNat =
        ((e.memWrites.reverse.find? (fun w => w.1 = a)).map (·.2)).getD (s.mem.read a.toNat)) ∧
      t.pc = e.redirect.getD (s.pc + 4) ∧ t.handler = e.handler ∧ t.answers = s.answers.tail ∧
      t.draws = (if s.answers = [] then s.draws + 1 else s.draws) ∧ t.imem = s.imem ∧ t.params = s.params) ∧
    (∀ info left, hostAnswer s = .fault info left → exec .syscall s = .fault (.syscallFault info left)) ∧
    (∀ left, hostAnswer s = .endsRun left →
      exec .syscall s = .refused (.runEndedByHost (s.readReg s.params.syscallReg) left)) ∧
    (hostAnswer s = .changesImem → exec .syscall s = .refused (.imemChanged (s.readReg s.params.syscallReg)))
end

