-- ==== Sys2Proof/Laws/Memory.lean ====
section
/-! SUPPORT. Byte memories: read after write, and that every operation keeps the canonical form. -/

namespace Sys2Proof

@[simp] theorem Memory.read_insert_self (m : Memory) (a : Nat) (b : Byte) : (m.insert a b).read a = some b := by
  induction m with
  | nil => simp [Memory.insert, Memory.read]
  | cons c m ih =>
    simp only [Memory.insert]
    split
    · simp [Memory.read]
    · split
      · simp [Memory.read]
      · next h => simp [Memory.read, ih, Ne.symm h]

theorem Memory.read_insert_ne (m : Memory) {a a' : Nat} (h : a' ≠ a) (b : Byte) :
    (m.insert a b).read a' = m.read a' := by
  induction m with
  | nil => simp [Memory.insert, Memory.read, Ne.symm h]
  | cons c m ih =>
    simp only [Memory.insert]
    split
    · simp [Memory.read, Ne.symm h]
    · split
      · next e => simp [Memory.read, ← e, Ne.symm h]
      · simp [Memory.read, ih]

theorem Memory.read_remove (m : Memory) (a a' : Nat) :
    (m.remove a).read a' = if a' = a then none else m.read a' := by
  induction m with
  | nil => simp [Memory.remove, Memory.read, Memory.unlisted]
  | cons c m ih =>
    simp only [Memory.remove, List.filter_cons] at ih ⊢
    by_cases hc : c.1 = a
    · simp only [hc, bne_self_eq_false, Bool.false_eq_true, if_false, ih, Memory.read]
      split
      · rfl
      · next h => simp [Ne.symm h]
    · simp only [bne_iff_ne, ne_eq, hc, not_false_eq_true, if_true, Memory.read, ih]
      by_cases ha : c.1 = a'
      · have : a' ≠ a := fun e => hc (ha.trans e)
        simp [ha, this]
      · simp [ha]

/-- Read after write, everywhere. -/
theorem Memory.read_write (m : Memory) (a a' : Nat) (v : Option Byte) :
    (m.write a v).read a' = if a' = a then v else m.read a' := by
  cases v with
  | none => exact Memory.read_remove m a a'
  | some b =>
    simp only [Memory.write]
    split
    · next h => rw [h, Memory.read_insert_self]
    · next h => exact Memory.read_insert_ne m h b

theorem Memory.mem_insert {m : Memory} {a : Nat} {b : Byte} {c : Host.Cell} (h : c ∈ m.insert a b) :
    c = (a, b) ∨ c ∈ m := by
  induction m with
  | nil => simpa [Memory.insert] using h
  | cons d m ih =>
    simp only [Memory.insert] at h
    split at h
    · simpa using h
    · split at h
      · rcases List.mem_cons.1 h with h | h
        · exact .inl h
        · exact .inr (List.mem_cons_of_mem _ h)
      · rcases List.mem_cons.1 h with h | h
        · exact .inr (h ▸ List.mem_cons_self)
        · exact (ih h).imp id (List.mem_cons_of_mem _)

theorem Memory.insert_wf {m : Memory} (h : m.wf) {a : Nat} (ha : a < 2 ^ 32) (b : Byte) : (m.insert a b).wf := by
  refine ⟨?_, fun c hc => (Memory.mem_insert hc).elim (fun e => e ▸ ha) (h.2 c)⟩
  have hp := h.1
  clear h
  induction m with
  | nil => simp [Memory.insert]
  | cons d m ih =>
    have hd := List.pairwise_cons.1 hp
    simp only [Memory.insert]
    split
    · next hlt =>
      refine List.pairwise_cons.2 ⟨fun c hc => ?_, hp⟩
      rcases List.mem_cons.1 hc with rfl | hc
      · exact hlt
      · exact Nat.lt_trans hlt (hd.1 c hc)
    · split
      · next e => exact List.pairwise_cons.2 ⟨fun c hc => by have := hd.1 c hc; omega, hd.2⟩
      · next hlt hne =>
        refine List.pairwise_cons.2 ⟨fun c hc => ?_, ih hd.2⟩
        rcases Memory.mem_insert hc with rfl | hc
        · exact Nat.lt_of_le_of_ne (Nat.le_of_not_lt hlt) (Ne.symm hne)
        · exact hd.1 c hc

theorem Memory.remove_wf {m : Memory} (h : m.wf) (a : Nat) : (m.remove a).wf :=
  ⟨h.1.filter _, fun c hc => h.2 c (List.mem_filter.1 hc).1⟩

/-- A write inside the address space keeps the canonical form. -/
theorem Memory.write_wf {m : Memory} (h : m.wf) {a : Nat} (ha : a < 2 ^ 32) (v : Option Byte) : (m.write a v).wf := by
  cases v with
  | none => exact Memory.remove_wf h a
  | some b => exact Memory.insert_wf h ha b

theorem aligned_iff (a : Word) : aligned a ↔ a.toNat % 4 = 0 := by
  unfold aligned
  rw [← BitVec.toNat_inj]
  simp

theorem aligned_room {a : Word} (h : aligned a) : a.toNat + 3 < 2 ^ 32 := by
  have := (aligned_iff a).1 h
  have := a.isLt
  omega

/-- Storing an aligned word keeps the canonical form. -/
theorem Memory.writeWord_wf {m : Memory} (h : m.wf) (o : ByteOrder) {a : Word} (ha : aligned a) (v : Word) :
    (m.writeWord o a v).wf := by
  have := aligned_room ha
  exact write_wf (write_wf (write_wf (write_wf h (by omega) _) (by omega) _) (by omega) _) (by omega) _

/-- The bytes a word store leaves: its own four, and every other byte as before. -/
theorem Memory.read_writeWord (o : ByteOrder) (m : Memory) (a v : Word) (b : Nat) :
    (m.writeWord o a v).read b =
      if b = a.toNat + 3 then some (byteOfWord o v 3) else if b = a.toNat + 2 then some (byteOfWord o v 2)
      else if b = a.toNat + 1 then some (byteOfWord o v 1) else if b = a.toNat then some (byteOfWord o v 0)
      else m.read b := by
  simp only [Memory.writeWord, Memory.read_write]

/-- A word's bytes, put together again, are the word, in either byte order (R34). -/
theorem wordOfBytes_byteOfWord (o : ByteOrder) (v : Word) :
    wordOfBytes o (byteOfWord o v 0) (byteOfWord o v 1) (byteOfWord o v 2) (byteOfWord o v 3) = v := by
  cases o <;> simp only [wordOfBytes, byteOfWord] <;>
    · repeat rw [BitVec.extractLsb'_append_extractLsb'_eq_extractLsb' (by decide)]
      simp

/-- A word reads back as stored. -/
theorem Memory.readWord_writeWord_self (o : ByteOrder) (m : Memory) (a v : Word) :
    (m.writeWord o a v).readWord o a = some v := by
  simp [Memory.readWord, Memory.read_writeWord, wordOfBytes_byteOfWord]

/-- A store leaves every other aligned word as it was. -/
theorem Memory.readWord_writeWord_ne (o : ByteOrder) (m : Memory) {a a' : Word} (v : Word) (ha : aligned a)
    (ha' : aligned a') (h : a' ≠ a) : (m.writeWord o a v).readWord o a' = m.readWord o a' := by
  have hn : a'.toNat ≠ a.toNat := fun e => h (BitVec.eq_of_toNat_eq e)
  have h1 := (aligned_iff a).1 ha
  have h2 := (aligned_iff a').1 ha'
  have e : ∀ k, k < 4 → (m.writeWord o a v).read (a'.toNat + k) = m.read (a'.toNat + k) := by
    intro k hk
    rw [Memory.read_writeWord, if_neg (by omega), if_neg (by omega), if_neg (by omega), if_neg (by omega)]
  have e0 := e 0 (by omega)
  rw [Nat.add_zero] at e0
  simp only [Memory.readWord, e0, e 1 (by omega), e 2 (by omega), e 3 (by omega)]

namespace Machine

/-- The handler's byte writes keep the canonical form. -/
theorem writeBytes_wf {m : Memory} (h : m.wf) (ws : List (Word × Option Byte)) : (writeBytes m ws).wf := by
  induction ws generalizing m with
  | nil => exact h
  | cons w ws ih => exact ih (Memory.write_wf h w.1.isLt w.2)

/-- The last of the handler's writes to an address is the one that stays. -/
theorem read_writeBytes_append (m : Memory) (ws : List (Word × Option Byte)) (a : Word) (v : Option Byte) (b : Nat) :
    (writeBytes m (ws ++ [(a, v)])).read b = if b = a.toNat then v else (writeBytes m ws).read b := by
  rw [writeBytes, List.foldl_append]
  exact Memory.read_write ..

theorem and_mask_aligned (a : Word) : aligned (a &&& 0xFFFFFFFC) := by
  unfold aligned
  ext i hi
  have : i = 0 ∨ i = 1 := by omega
  rcases this with rfl | rfl <;> simp

/-- The word loaded at the pc is the word the next fetch reads. -/
theorem fetchWord_loadAtPc (s : State) (w : Word) : (s.loadAtPc w).fetchWord = some w :=
  Memory.readWord_writeWord_self ..

end Machine

end Sys2Proof
end

