-- ==== Sys2Proof/Laws/Alu.lean ====
section
/-! SUPPORT. What the arithmetic and control-flow units compute, as exact integers and as fields
(40_functional_units.md R70 to R81). -/

namespace Sys2Proof.Machine

theorem toInt_bounds (a : Word) : -2147483648 ≤ a.toInt ∧ a.toInt < 2147483648 := by
  have h1 := BitVec.le_toInt a
  have h2 := BitVec.toInt_lt (x := a)
  omega

/-- The sign test of R70 says exactly that the exact sum does not fit. -/
theorem addOverflow_iff (a b : Word) :
    addOverflow a b = true ↔ ¬ (-2147483648 ≤ a.toInt + b.toInt ∧ a.toInt + b.toInt < 2147483648) := by
  have ha := toInt_bounds a
  have hb := toInt_bounds b
  have hs : (a + b).toInt = (a.toInt + b.toInt).bmod (2 ^ 32) := BitVec.toInt_add a b
  simp only [addOverflow, BitVec.msb_eq_toInt, hs, Int.bmod_def]
  by_cases h1 : a.toInt < 0 <;> by_cases h2 : b.toInt < 0 <;> simp [h1, h2] <;> omega

/-- The sign test of R71 says exactly that the exact difference does not fit. -/
theorem subOverflow_iff (a b : Word) :
    subOverflow a b = true ↔ ¬ (-2147483648 ≤ a.toInt - b.toInt ∧ a.toInt - b.toInt < 2147483648) := by
  have ha := toInt_bounds a
  have hb := toInt_bounds b
  have hs : (a - b).toInt = (a.toInt - b.toInt).bmod (2 ^ 32) := BitVec.toInt_sub
  simp only [subOverflow, BitVec.msb_eq_toInt, hs, Int.bmod_def]
  by_cases h1 : a.toInt < 0 <;> by_cases h2 : b.toInt < 0 <;> simp [h1, h2] <;> omega

/-- Everything CheckedAdd can do (R70). -/
theorem checkedAdd_cases (a b : Word) :
    (checkedAdd a b = .error .arithmeticOverflow ∧
      ¬ (-2147483648 ≤ a.toInt + b.toInt ∧ a.toInt + b.toInt < 2147483648)) ∨
    (checkedAdd a b = .ok (a + b) ∧ (a + b).toInt = a.toInt + b.toInt ∧
      -2147483648 ≤ a.toInt + b.toInt ∧ a.toInt + b.toInt < 2147483648) := by
  cases h : addOverflow a b
  · right
    have hr : -2147483648 ≤ a.toInt + b.toInt ∧ a.toInt + b.toInt < 2147483648 := by
      by_contra hc
      rw [(addOverflow_iff a b).2 hc] at h
      exact Bool.noConfusion h
    refine ⟨by simp [checkedAdd, h], ?_, hr⟩
    rw [BitVec.toInt_add, Int.bmod_def]
    omega
  · exact .inl ⟨by simp [checkedAdd, h], (addOverflow_iff a b).1 h⟩

/-- Everything CheckedSub can do (R71). -/
theorem checkedSub_cases (a b : Word) :
    (checkedSub a b = .error .arithmeticOverflow ∧
      ¬ (-2147483648 ≤ a.toInt - b.toInt ∧ a.toInt - b.toInt < 2147483648)) ∨
    (checkedSub a b = .ok (a - b) ∧ (a - b).toInt = a.toInt - b.toInt ∧
      -2147483648 ≤ a.toInt - b.toInt ∧ a.toInt - b.toInt < 2147483648) := by
  cases h : subOverflow a b
  · right
    have hr : -2147483648 ≤ a.toInt - b.toInt ∧ a.toInt - b.toInt < 2147483648 := by
      by_contra hc
      rw [(subOverflow_iff a b).2 hc] at h
      exact Bool.noConfusion h
    refine ⟨by simp [checkedSub, h], ?_, hr⟩
    rw [BitVec.toInt_sub, Int.bmod_def]
    omega
  · exact .inl ⟨by simp [checkedSub, h], (subOverflow_iff a b).1 h⟩

/-- R72: the low 32 bits are those of the unsigned product too, the machine multiplication of words. -/
theorem truncMul_eq_mul (a b : Word) : truncMul a b = a * b := by
  apply BitVec.eq_of_toInt_eq
  rw [truncMul, BitVec.toInt_ofInt, BitVec.toInt_mul]

/-- The low 32 bits of an exact integer. -/
theorem ofInt_toNat (n : Int) : ((BitVec.ofInt 32 n).toNat : Int) = n % 4294967296 := by
  rw [BitVec.toNat_ofInt]
  omega

/-- A quotient that fits is exact (R73). -/
theorem toInt_ofInt_of_fits {n : Int} (h1 : -2147483648 ≤ n) (h2 : n < 2147483648) : (BitVec.ofInt 32 n).toInt = n := by
  rw [BitVec.toInt_ofInt, Int.bmod_def]
  omega

/-- Of the divisions by a non-zero word, only -2^31 / -1 does not fit (R73). -/
theorem tdiv_fits {a b : Word} (hb : b ≠ 0) (h : ¬ (a = 0x80000000 ∧ b = 0xFFFFFFFF)) :
    -2147483648 ≤ a.toInt.tdiv b.toInt ∧ a.toInt.tdiv b.toInt < 2147483648 := by
  have ha := toInt_bounds a
  have hbn : b.toInt ≠ 0 := fun e => hb (BitVec.eq_of_toInt_eq (by simpa using e))
  have hq : (a.toInt.tdiv b.toInt).natAbs = a.toInt.natAbs / b.toInt.natAbs := Int.natAbs_tdiv ..
  have hle : a.toInt.natAbs / b.toInt.natAbs ≤ a.toInt.natAbs := Nat.div_le_self ..
  by_cases hm : a.toInt = -2147483648
  · have ha' : a = 0x80000000 := BitVec.eq_of_toInt_eq (by simpa using hm)
    by_cases hb1 : b.toInt = -1
    · exact absurd ⟨ha', BitVec.eq_of_toInt_eq (by simpa using hb1)⟩ h
    · by_cases hb2 : b.toInt = 1
      · rw [hb2, Int.tdiv_one]; omega
      · have h2 : 2 ≤ b.toInt.natAbs := by omega
        have : a.toInt.natAbs / b.toInt.natAbs ≤ a.toInt.natAbs / 2 := Nat.div_le_div_left h2 (by decide)
        omega
  · omega

/-- Everything CheckedDiv can do (R73). -/
theorem checkedDiv_cases (p a b : Word) :
    (checkedDiv p a b = .error .divideByZero ∧ b = 0) ∨
    (checkedDiv p a b = .ok p ∧ a = 0x80000000 ∧ b = 0xFFFFFFFF) ∨
    (∃ q, checkedDiv p a b = .ok q ∧ q.toInt = a.toInt.tdiv b.toInt ∧ b ≠ 0 ∧ ¬ (a = 0x80000000 ∧ b = 0xFFFFFFFF)) := by
  by_cases hb : b = 0
  · exact .inl ⟨by simp [checkedDiv, hb], hb⟩
  · by_cases h : a = 0x80000000 ∧ b = 0xFFFFFFFF
    · exact .inr (.inl ⟨by rw [checkedDiv, if_neg hb, if_pos h], h⟩)
    · have hf := tdiv_fits hb h
      exact .inr (.inr ⟨_, by rw [checkedDiv, if_neg hb, if_neg h], toInt_ofInt_of_fits hf.1 hf.2, hb, h⟩)

/-- The top four bits of a pc, bit by bit (R80, R81). -/
theorem region_bit (pc : Word) {i : Nat} (hi : i < 32) :
    (pc &&& 0xF0000000).getLsbD i = (decide (28 ≤ i) && pc.getLsbD i) := by
  have h : ∀ j : Fin 32, (0xF0000000 : Word).getLsbD j.val = decide (28 ≤ j.val) := by decide
  rw [BitVec.getLsbD_and, h ⟨i, hi⟩, Bool.and_comm]

/-- R80: the target's fields. -/
theorem jumpTarget_fields (pc : Word) (t : Target26) : jumpTarget pc t = pc.extractLsb' 28 4 ++ t ++ (0b00 : BitVec 2) := by
  apply BitVec.eq_of_getLsbD_eq
  intro i hi
  rw [BitVec.getLsbD_append, BitVec.getLsbD_append, jumpTarget, BitVec.getLsbD_or, region_bit pc hi]
  simp only [targetOffset, BitVec.getLsbD_shiftLeft, BitVec.getLsbD_setWidth, BitVec.getLsbD_extractLsb']
  by_cases h2 : i < 2
  · have : ¬ 28 ≤ i := by omega
    simp [h2, this]
  · by_cases h28 : 28 ≤ i
    · have h' : ¬ i - 2 < 26 := by omega
      have e : 28 + (i - 2 - 26) = i := by omega
      have e2 : i - 2 - 26 < 4 := by omega
      simp [h2, h28, h', e, e2, hi, BitVec.getLsbD_of_ge t (i - 2) (by omega)]
    · have h' : i - 2 < 26 := by omega
      have e2 : i - 2 < 32 := by omega
      simp [h2, h28, h', e2, hi]

/-- BT_REGION's fields (R81). -/
theorem btRegion_fields (pc : Word) (f : Imm16) :
    btRegion pc f = pc.extractLsb' 28 4 ++ (0 : BitVec 10) ++ f ++ (0b00 : BitVec 2) := by
  apply BitVec.eq_of_getLsbD_eq
  intro i hi
  rw [BitVec.getLsbD_append, BitVec.getLsbD_append, BitVec.getLsbD_append, btRegion, BitVec.getLsbD_or, region_bit pc hi]
  simp only [zext32, BitVec.getLsbD_shiftLeft, BitVec.getLsbD_setWidth, BitVec.getLsbD_extractLsb']
  by_cases h2 : i < 2
  · have : ¬ 28 ≤ i := by omega
    simp [h2, this]
  · by_cases h28 : 28 ≤ i
    · have h' : ¬ i - 2 < 16 := by omega
      have h'' : ¬ i - 2 - 16 < 10 := by omega
      have e : 28 + (i - 2 - 16 - 10) = i := by omega
      have e2 : i - 2 - 16 - 10 < 4 := by omega
      simp [h2, h28, h', h'', e, e2, hi, BitVec.getLsbD_of_ge f (i - 2) (by omega)]
    · by_cases h16 : i - 2 < 16
      · have e2 : i - 2 < 32 := by omega
        simp [h2, h28, h16, e2, hi]
      · have h'' : i - 2 - 16 < 10 := by omega
        simp [h2, h28, h16, h'', BitVec.getLsbD_of_ge f (i - 2) (by omega)]

theorem or_aligned {a b : Word} (ha : aligned a) (hb : aligned b) : aligned (a ||| b) := by
  unfold aligned at *
  rw [BitVec.extractLsb'_or, ha, hb]
  rfl

theorem shift_two_aligned (a : Word) : aligned (a <<< 2) := by
  unfold aligned
  ext i hi
  have : i = 0 ∨ i = 1 := by omega
  rcases this with rfl | rfl <;> simp

theorem and_aligned {a : Word} (ha : aligned a) (b : Word) : aligned (a &&& b) := by
  unfold aligned at *
  rw [BitVec.extractLsb'_and, ha]
  exact BitVec.zero_and

theorem region_aligned (pc : Word) : aligned (pc &&& 0xF0000000) := by
  unfold aligned
  rw [BitVec.extractLsb'_and]
  exact BitVec.and_zero

theorem add_aligned {a b : Word} (ha : aligned a) (hb : aligned b) : aligned (a + b) := by
  rw [aligned_iff] at *
  rw [BitVec.toNat_add]
  omega

/-- Every branch convention keeps an aligned pc aligned (R81, R86). -/
theorem branchTarget_aligned (c : BranchConv) {pc : Word} (h : aligned pc) (f : Imm16) : aligned (branchTarget c pc f) := by
  cases c with
  | region => exact or_aligned (and_aligned h _) (shift_two_aligned _)
  | relative => exact add_aligned (add_aligned h (by decide)) (shift_two_aligned _)
  | host => rw [branchTarget, btHost, if_pos h]; exact and_mask_aligned _

/-- J, CALL, CALLBASE and AUTOEVADE cannot misalign the pc, whatever it was (R80, R86). -/
theorem jumpTarget_aligned (pc : Word) (t : Target26) : aligned (jumpTarget pc t) :=
  or_aligned (region_aligned pc) (shift_two_aligned _)

end Sys2Proof.Machine
end

