-- ==== Sys2Proof/Laws/Decode.lean ====
section
/-! SUPPORT. The fields of a word written field by field, and a word put together from its fields (30_encoding.md R41 to
R43). -/

namespace Sys2Proof

@[simp] theorem toFin_regBits (r : Reg) : (regBits r).toFin = r := rfl

section
variable (op funct : BitVec 6) (rs rt rd : Reg) (imm : Imm16) (t : Target26)

@[simp] theorem opcodeField_rWord : opcodeField (rWord funct rs rt rd) = 0 := by
  unfold opcodeField rWord
  rw [BitVec.extractLsb'_append_eq_of_le (by decide), BitVec.extractLsb'_append_eq_of_le (by decide),
    BitVec.extractLsb'_append_eq_of_le (by decide), BitVec.extractLsb'_append_eq_of_le (by decide),
    BitVec.extractLsb'_append_eq_of_le (by decide)]
  rfl

@[simp] theorem functField_rWord : functField (rWord funct rs rt rd) = funct := by
  unfold functField rWord
  rw [BitVec.extractLsb'_append_eq_of_add_le (by decide)]
  simp

@[simp] theorem rsField_rWord : rsField (rWord funct rs rt rd) = rs := by
  have h : (rWord funct rs rt rd).extractLsb' 21 5 = regBits rs := by
    unfold rWord
    rw [BitVec.extractLsb'_append_eq_of_le (by decide), BitVec.extractLsb'_append_eq_of_le (by decide),
      BitVec.extractLsb'_append_eq_of_le (by decide), BitVec.extractLsb'_append_eq_of_le (by decide),
      BitVec.extractLsb'_append_eq_of_add_le (by decide)]
    simp
  rw [rsField, h, toFin_regBits]

@[simp] theorem rtField_rWord : rtField (rWord funct rs rt rd) = rt := by
  have h : (rWord funct rs rt rd).extractLsb' 16 5 = regBits rt := by
    unfold rWord
    rw [BitVec.extractLsb'_append_eq_of_le (by decide), BitVec.extractLsb'_append_eq_of_le (by decide),
      BitVec.extractLsb'_append_eq_of_le (by decide), BitVec.extractLsb'_append_eq_of_add_le (by decide)]
    simp
  rw [rtField, h, toFin_regBits]

@[simp] theorem rdField_rWord : rdField (rWord funct rs rt rd) = rd := by
  have h : (rWord funct rs rt rd).extractLsb' 11 5 = regBits rd := by
    unfold rWord
    rw [BitVec.extractLsb'_append_eq_of_le (by decide), BitVec.extractLsb'_append_eq_of_le (by decide),
      BitVec.extractLsb'_append_eq_of_add_le (by decide)]
    simp
  rw [rdField, h, toFin_regBits]

@[simp] theorem opcodeField_iWord : opcodeField (iWord op rs rt imm) = op := by
  unfold opcodeField iWord
  rw [BitVec.extractLsb'_append_eq_of_le (by decide), BitVec.extractLsb'_append_eq_of_le (by decide),
    BitVec.extractLsb'_append_eq_of_le (by decide)]
  simp

@[simp] theorem rsField_iWord : rsField (iWord op rs rt imm) = rs := by
  have h : (iWord op rs rt imm).extractLsb' 21 5 = regBits rs := by
    unfold iWord
    rw [BitVec.extractLsb'_append_eq_of_le (by decide), BitVec.extractLsb'_append_eq_of_le (by decide),
      BitVec.extractLsb'_append_eq_of_add_le (by decide)]
    simp
  rw [rsField, h, toFin_regBits]

@[simp] theorem rtField_iWord : rtField (iWord op rs rt imm) = rt := by
  have h : (iWord op rs rt imm).extractLsb' 16 5 = regBits rt := by
    unfold iWord
    rw [BitVec.extractLsb'_append_eq_of_le (by decide), BitVec.extractLsb'_append_eq_of_add_le (by decide)]
    simp
  rw [rtField, h, toFin_regBits]

@[simp] theorem immField_iWord : immField (iWord op rs rt imm) = imm := by
  unfold immField iWord
  rw [BitVec.extractLsb'_append_eq_of_add_le (by decide)]
  simp

@[simp] theorem opcodeField_jWord : opcodeField (jWord op t) = op := by
  unfold opcodeField jWord
  rw [BitVec.extractLsb'_append_eq_of_le (by decide)]
  simp

@[simp] theorem targetField_jWord : targetField (jWord op t) = t := by
  unfold targetField jWord
  rw [BitVec.extractLsb'_append_eq_of_add_le (by decide)]
  simp

end

/-- A masked word is zero exactly when the word has no bit of the mask. -/
theorem and_mask_eq_zero {w m : Word} : w &&& m = 0 ↔ ∀ k < 32, m.getLsbD k = true → w.getLsbD k = false := by
  constructor
  · intro h k hk hm
    have := congrArg (fun v : Word => v.getLsbD k) h
    simpa [hm] using this
  · intro h
    apply BitVec.eq_of_getLsbD_eq
    intro k hk
    rw [BitVec.getLsbD_and]
    cases hm : m.getLsbD k
    · simp
    · simp [h k hk hm]

/-- The bits of an R-format word. -/
theorem rWord_bit (funct : BitVec 6) (rs rt rd : Reg) (k : Nat) :
    (rWord funct rs rt rd).getLsbD k =
      if k < 6 then funct.getLsbD k else if k < 11 then false else if k < 16 then (regBits rd).getLsbD (k - 11)
      else if k < 21 then (regBits rt).getLsbD (k - 16) else if k < 26 then (regBits rs).getLsbD (k - 21) else false := by
  unfold rWord
  rw [BitVec.getLsbD_append, BitVec.getLsbD_append, BitVec.getLsbD_append, BitVec.getLsbD_append, BitVec.getLsbD_append]
  have e1 : k - 6 - 5 = k - 11 := by omega
  have e2 : k - 11 - 5 = k - 16 := by omega
  have e3 : k - 16 - 5 = k - 21 := by omega
  rw [e1, e2, e3]
  by_cases h6 : k < 6
  · simp [h6]
  by_cases h11 : k < 11
  · have : k - 6 < 5 := by omega
    simp [h6, h11, this]
  have h1 : ¬ k - 6 < 5 := by omega
  by_cases h16 : k < 16
  · have : k - 11 < 5 := by omega
    simp [h6, h11, h16, h1, this]
  have h2 : ¬ k - 11 < 5 := by omega
  by_cases h21 : k < 21
  · have : k - 16 < 5 := by omega
    simp [h6, h11, h16, h21, h1, h2, this]
  have h3 : ¬ k - 16 < 5 := by omega
  by_cases h26 : k < 26
  · have : k - 21 < 5 := by omega
    simp [h6, h11, h16, h21, h26, h1, h2, h3, this]
  · have : ¬ k - 21 < 5 := by omega
    simp [h6, h11, h16, h21, h26, h1, h2, h3, this]

/-- The bits of an I-format word. -/
theorem iWord_bit (op : BitVec 6) (rs rt : Reg) (imm : Imm16) (k : Nat) :
    (iWord op rs rt imm).getLsbD k =
      if k < 16 then imm.getLsbD k else if k < 21 then (regBits rt).getLsbD (k - 16)
      else if k < 26 then (regBits rs).getLsbD (k - 21) else op.getLsbD (k - 26) := by
  unfold iWord
  rw [BitVec.getLsbD_append, BitVec.getLsbD_append, BitVec.getLsbD_append]
  have e1 : k - 16 - 5 = k - 21 := by omega
  have e2 : k - 21 - 5 = k - 26 := by omega
  rw [e1, e2]
  by_cases h16 : k < 16
  · simp [h16]
  by_cases h21 : k < 21
  · have : k - 16 < 5 := by omega
    simp [h16, h21, this]
  have h1 : ¬ k - 16 < 5 := by omega
  by_cases h26 : k < 26
  · have : k - 21 < 5 := by omega
    simp [h16, h21, h26, h1, this]
  · have : ¬ k - 21 < 5 := by omega
    simp [h16, h21, h26, h1, this]

/-- The bits of a J-format word. -/
theorem jWord_bit (op : BitVec 6) (t : Target26) (k : Nat) :
    (jWord op t).getLsbD k = if k < 26 then t.getLsbD k else op.getLsbD (k - 26) := by
  unfold jWord
  rw [BitVec.getLsbD_append]

/-- A word is its three J-format parts. -/
theorem jWord_fields (w : Word) : jWord (opcodeField w) (targetField w) = w := by
  unfold jWord opcodeField targetField
  rw [BitVec.extractLsb'_append_extractLsb'_eq_extractLsb' (by decide)]
  simp

theorem regBits_rsField (w : Word) : regBits (rsField w) = w.extractLsb' 21 5 := rfl
theorem regBits_rtField (w : Word) : regBits (rtField w) = w.extractLsb' 16 5 := rfl
theorem regBits_rdField (w : Word) : regBits (rdField w) = w.extractLsb' 11 5 := rfl

/-- A word is its four I-format parts. -/
theorem iWord_fields (w : Word) : iWord (opcodeField w) (rsField w) (rtField w) (immField w) = w := by
  unfold iWord opcodeField immField
  rw [regBits_rsField, regBits_rtField]
  repeat rw [BitVec.extractLsb'_append_extractLsb'_eq_extractLsb' (by decide)]
  simp

/-- A word with opcode 000000 and shamt 00000 is its R-format parts. -/
theorem rWord_fields {w : Word} (ho : opcodeField w = 0) (hs : w.extractLsb' 6 5 = 0) :
    rWord (functField w) (rsField w) (rtField w) (rdField w) = w := by
  unfold opcodeField at ho
  unfold rWord functField
  rw [regBits_rsField, regBits_rtField, regBits_rdField, ← ho, ← hs]
  repeat rw [BitVec.extractLsb'_append_extractLsb'_eq_extractLsb' (by decide)]
  simp

theorem find?_code {ms : List Mnemonic} {e : Enc} {c : BitVec 6} {m : Mnemonic}
    (h : ms.find? (fun m => e.code m == c) = some m) : m ∈ ms ∧ e.code m = c :=
  ⟨List.mem_of_find?_eq_some h, by simpa using List.find?_some h⟩

/-- Everything decodeWord can accept (R51): the row is found by its code and its unused fields are zero. -/
theorem decodeWord_ok {e : Enc} {w : Word} {i : Instr} (h : decodeWord e w = .ok i) :
    ∃ m, i = m.build w ∧ w &&& m.unusedMask = 0 ∧
      ((opcodeField w = 0 ∧ m ∈ rMnemonics ∧ e.code m = functField w) ∨
        (opcodeField w ≠ 0 ∧ m ∈ ijMnemonics ∧ e.code m = opcodeField w)) := by
  have accept : ∀ {m : Mnemonic}, m.accept w = .ok i → i = m.build w ∧ w &&& m.unusedMask = 0 := by
    intro m hm
    unfold Mnemonic.accept at hm
    split at hm
    · next hz => exact ⟨(Except.ok.inj hm).symm, hz⟩
    · cases hm
  unfold decodeWord at h
  split at h
  · next ho =>
    split at h
    · next m hf =>
      obtain ⟨hb, hz⟩ := accept h
      exact ⟨m, hb, hz, .inl ⟨ho, find?_code hf⟩⟩
    · cases h
  · next ho =>
    split at h
    · next m hf =>
      obtain ⟨hb, hz⟩ := accept h
      exact ⟨m, hb, hz, .inr ⟨ho, find?_code hf⟩⟩
    · cases h

/-- A lookup finds the row whose code it is given, when no other row has that code. -/
theorem find?_of_nodup {ms : List Mnemonic} {e : Enc} (hn : (ms.map e.code).Nodup) {m : Mnemonic} (hm : m ∈ ms) :
    ms.find? (fun n => e.code n == e.code m) = some m := by
  induction ms with
  | nil => cases hm
  | cons n ms ih =>
    have hc := List.nodup_cons.1 hn
    by_cases hnm : n = m
    · subst hnm; simp
    · have hm' : m ∈ ms := (List.mem_cons.1 hm).resolve_left (Ne.symm hnm)
      have : e.code n ≠ e.code m := fun he => hc.1 (he ▸ List.mem_map_of_mem hm')
      rw [List.find?_cons_of_neg (by simpa using this)]
      exact ih hc.2 hm'

/-- Decoding a word whose row is known (R51). -/
theorem decodeWord_r {e : Enc} (he : e.wf) {w : Word} {m : Mnemonic} (hm : m ∈ rMnemonics) (ho : opcodeField w = 0)
    (hc : functField w = e.code m) (hz : w &&& m.unusedMask = 0) : decodeWord e w = .ok (m.build w) := by
  have hf := find?_of_nodup (ms := rMnemonics) (e := e) he.1 hm
  rw [← hc] at hf
  rw [decodeWord, if_pos ho, hf]
  exact if_pos hz

/-- The same for I- and J-format rows. -/
theorem decodeWord_ij {e : Enc} (he : e.wf) {w : Word} {m : Mnemonic} (hm : m ∈ ijMnemonics)
    (hc : opcodeField w = e.code m) (hz : w &&& m.unusedMask = 0) : decodeWord e w = .ok (m.build w) := by
  have ho : opcodeField w ≠ 0 := fun h0 => he.2.2 (h0 ▸ hc ▸ List.mem_map_of_mem hm)
  have hf := find?_of_nodup (ms := ijMnemonics) (e := e) he.2.1 hm
  rw [← hc] at hf
  rw [decodeWord, if_neg ho, hf]
  exact if_pos hz

end Sys2Proof
end

