-- ==== Sys2Proof/Laws/State.lean ====
section
/-! SUPPORT. One lemma per field per update of State, true by rfl, and the register file's read after write. -/

namespace Sys2Proof.Machine

section
variable (s : State) (r q : Reg) (v a : Word) (m : Memory) (f : Flag) (b : Bool)

@[simp] theorem writeReg_pc : (s.writeReg r v).pc = s.pc := rfl
@[simp] theorem writeReg_mem : (s.writeReg r v).mem = s.mem := rfl
@[simp] theorem writeReg_imem : (s.writeReg r v).imem = s.imem := rfl
@[simp] theorem writeReg_handler : (s.writeReg r v).handler = s.handler := rfl
@[simp] theorem writeReg_answers : (s.writeReg r v).answers = s.answers := rfl
@[simp] theorem writeReg_draws : (s.writeReg r v).draws = s.draws := rfl
@[simp] theorem writeReg_params : (s.writeReg r v).params = s.params := rfl

@[simp] theorem setPc_pc : (s.setPc a).pc = a := rfl
@[simp] theorem setPc_readReg : (s.setPc a).readReg r = s.readReg r := rfl
@[simp] theorem setPc_mem : (s.setPc a).mem = s.mem := rfl
@[simp] theorem setPc_imem : (s.setPc a).imem = s.imem := rfl
@[simp] theorem setPc_handler : (s.setPc a).handler = s.handler := rfl
@[simp] theorem setPc_answers : (s.setPc a).answers = s.answers := rfl
@[simp] theorem setPc_draws : (s.setPc a).draws = s.draws := rfl
@[simp] theorem setPc_params : (s.setPc a).params = s.params := rfl

@[simp] theorem setMem_pc : (s.setMem m).pc = s.pc := rfl
@[simp] theorem setMem_readReg : (s.setMem m).readReg r = s.readReg r := rfl
@[simp] theorem setMem_mem : (s.setMem m).mem = m := rfl
@[simp] theorem setMem_imem : (s.setMem m).imem = s.imem := rfl
@[simp] theorem setMem_handler : (s.setMem m).handler = s.handler := rfl
@[simp] theorem setMem_answers : (s.setMem m).answers = s.answers := rfl
@[simp] theorem setMem_draws : (s.setMem m).draws = s.draws := rfl
@[simp] theorem setMem_params : (s.setMem m).params = s.params := rfl

@[simp] theorem setImem_pc : (s.setImem m).pc = s.pc := rfl
@[simp] theorem setImem_readReg : (s.setImem m).readReg r = s.readReg r := rfl
@[simp] theorem setImem_mem : (s.setImem m).mem = s.mem := rfl
@[simp] theorem setImem_imem : (s.setImem m).imem = m := rfl
@[simp] theorem setImem_handler : (s.setImem m).handler = s.handler := rfl
@[simp] theorem setImem_answers : (s.setImem m).answers = s.answers := rfl
@[simp] theorem setImem_draws : (s.setImem m).draws = s.draws := rfl
@[simp] theorem setImem_params : (s.setImem m).params = s.params := rfl

@[simp] theorem setFlag_pc : (s.setFlag f b).pc = s.pc := rfl
@[simp] theorem setFlag_mem : (s.setFlag f b).mem = s.mem := rfl
@[simp] theorem setFlag_imem : (s.setFlag f b).imem = s.imem := rfl
@[simp] theorem setFlag_handler : (s.setFlag f b).handler = s.handler := rfl
@[simp] theorem setFlag_answers : (s.setFlag f b).answers = s.answers := rfl
@[simp] theorem setFlag_draws : (s.setFlag f b).draws = s.draws := rfl
@[simp] theorem setFlag_params : (s.setFlag f b).params = s.params := rfl

@[simp] theorem updateZN_pc : (s.updateZN v).pc = s.pc := rfl
@[simp] theorem updateZN_mem : (s.updateZN v).mem = s.mem := rfl
@[simp] theorem updateZN_imem : (s.updateZN v).imem = s.imem := rfl
@[simp] theorem updateZN_handler : (s.updateZN v).handler = s.handler := rfl
@[simp] theorem updateZN_answers : (s.updateZN v).answers = s.answers := rfl
@[simp] theorem updateZN_draws : (s.updateZN v).draws = s.draws := rfl
@[simp] theorem updateZN_params : (s.updateZN v).params = s.params := rfl

@[simp] theorem spendEnergy_pc : s.spendEnergy.pc = s.pc := rfl
@[simp] theorem spendEnergy_mem : s.spendEnergy.mem = s.mem := rfl
@[simp] theorem spendEnergy_imem : s.spendEnergy.imem = s.imem := rfl
@[simp] theorem spendEnergy_handler : s.spendEnergy.handler = s.handler := rfl
@[simp] theorem spendEnergy_answers : s.spendEnergy.answers = s.answers := rfl
@[simp] theorem spendEnergy_draws : s.spendEnergy.draws = s.draws := rfl
@[simp] theorem spendEnergy_params : s.spendEnergy.params = s.params := rfl

@[simp] theorem loadAtPc_pc : (s.loadAtPc v).pc = s.pc &&& 0xFFFFFFFC := rfl
@[simp] theorem loadAtPc_readReg : (s.loadAtPc v).readReg r = s.readReg r := rfl
@[simp] theorem loadAtPc_mem : (s.loadAtPc v).mem = s.mem := rfl
@[simp] theorem loadAtPc_imem :
    (s.loadAtPc v).imem = s.imem.writeWord s.params.byteOrder (s.pc &&& 0xFFFFFFFC) v := rfl
@[simp] theorem loadAtPc_handler : (s.loadAtPc v).handler = s.handler := rfl
@[simp] theorem loadAtPc_answers : (s.loadAtPc v).answers = s.answers := rfl
@[simp] theorem loadAtPc_draws : (s.loadAtPc v).draws = s.draws := rfl
@[simp] theorem loadAtPc_params : (s.loadAtPc v).params = s.params := rfl

@[simp] theorem readReg_writeReg_self : (s.writeReg r v).readReg r = v := by
  simp [State.readReg, State.writeReg]

theorem readReg_writeReg_ne (h : q ≠ r) : (s.writeReg r v).readReg q = s.readReg q := by
  have h' : (r : Nat) ≠ q := fun e => h (Fin.ext e.symm)
  simp [State.readReg, State.writeReg, h']

theorem readReg_writeReg : (s.writeReg r v).readReg q = if q = r then v else s.readReg q := by
  split
  · next h => rw [h, readReg_writeReg_self]
  · next h => exact readReg_writeReg_ne s r q v h

theorem readReg_setFlag :
    (s.setFlag f b).readReg q = if q = srReg then srWithFlag (s.readReg srReg) f b else s.readReg q :=
  readReg_writeReg ..

theorem readReg_updateZN :
    (s.updateZN v).readReg q = if q = srReg then srWithZN (s.readReg srReg) v else s.readReg q :=
  readReg_writeReg ..

theorem readReg_spendEnergy :
    s.spendEnergy.readReg q = if q = enReg then s.readReg enReg - 1 else s.readReg q :=
  readReg_writeReg ..

end

@[simp] theorem consumeAnswer_pc (s : State) : (consumeAnswer s).pc = s.pc := by unfold consumeAnswer; split <;> rfl
@[simp] theorem consumeAnswer_readReg (s : State) (r : Reg) : (consumeAnswer s).readReg r = s.readReg r := by
  unfold consumeAnswer; split <;> rfl
@[simp] theorem consumeAnswer_mem (s : State) : (consumeAnswer s).mem = s.mem := by unfold consumeAnswer; split <;> rfl
@[simp] theorem consumeAnswer_imem (s : State) : (consumeAnswer s).imem = s.imem := by
  unfold consumeAnswer; split <;> rfl
@[simp] theorem consumeAnswer_handler (s : State) : (consumeAnswer s).handler = s.handler := by
  unfold consumeAnswer; split <;> rfl
@[simp] theorem consumeAnswer_params (s : State) : (consumeAnswer s).params = s.params := by
  unfold consumeAnswer; split <;> rfl

/-- The handler's register writes change nothing but registers. -/
theorem writeRegs_fields (ws : List (Reg × Word)) (s : State) :
    (writeRegs s ws).pc = s.pc ∧ (writeRegs s ws).mem = s.mem ∧ (writeRegs s ws).imem = s.imem ∧
      (writeRegs s ws).handler = s.handler ∧ (writeRegs s ws).answers = s.answers ∧ (writeRegs s ws).draws = s.draws ∧
      (writeRegs s ws).params = s.params := by
  induction ws generalizing s with
  | nil => exact ⟨rfl, rfl, rfl, rfl, rfl, rfl, rfl⟩
  | cons w ws ih => exact ih (s.writeReg w.1 w.2)

@[simp] theorem applyHostEffect_pc (s : State) (e : HostEffect) : (applyHostEffect s e).pc = s.pc :=
  (writeRegs_fields e.regWrites s).1
@[simp] theorem applyHostEffect_mem (s : State) (e : HostEffect) :
    (applyHostEffect s e).mem = writeBytes s.mem e.memWrites := rfl
@[simp] theorem applyHostEffect_imem (s : State) (e : HostEffect) : (applyHostEffect s e).imem = s.imem :=
  (writeRegs_fields e.regWrites s).2.2.1
@[simp] theorem applyHostEffect_handler (s : State) (e : HostEffect) : (applyHostEffect s e).handler = e.handler := rfl
@[simp] theorem applyHostEffect_answers (s : State) (e : HostEffect) : (applyHostEffect s e).answers = s.answers :=
  (writeRegs_fields e.regWrites s).2.2.2.2.1
@[simp] theorem applyHostEffect_draws (s : State) (e : HostEffect) : (applyHostEffect s e).draws = s.draws :=
  (writeRegs_fields e.regWrites s).2.2.2.2.2.1
@[simp] theorem applyHostEffect_params (s : State) (e : HostEffect) : (applyHostEffect s e).params = s.params :=
  (writeRegs_fields e.regWrites s).2.2.2.2.2.2
theorem applyHostEffect_readReg (s : State) (e : HostEffect) (r : Reg) :
    (applyHostEffect s e).readReg r = (writeRegs s e.regWrites).readReg r := rfl

/-- The last of the handler's writes to a register is the one that stays. -/
theorem readReg_writeRegs_append (s : State) (ws : List (Reg × Word)) (q r : Reg) (v : Word) :
    (writeRegs s (ws ++ [(q, v)])).readReg r = if r = q then v else (writeRegs s ws).readReg r := by
  rw [writeRegs, List.foldl_append]
  exact readReg_writeReg ..

end Sys2Proof.Machine
end

