-- ==== Sys2Proof/Laws/Flags.lean ====
section
/-! SUPPORT. The flag operations bit by bit (40_functional_units.md R64 to R66). -/

namespace Sys2Proof.Machine

theorem flag_bit_lt (f : Flag) : f.bit < 32 := by cases f <;> decide

/-- R65, one bit at a time. -/
theorem srWithFlag_bit (sr : Word) (f : Flag) (val : Bool) (k : Nat) :
    (srWithFlag sr f val).getLsbD k = if k = f.bit then val else sr.getLsbD k := by
  have hf := flag_bit_lt f
  by_cases hk : k < 32
  · cases val <;> by_cases h : k = f.bit
    · subst h; simp [srWithFlag, hf]
    · by_cases h' : k < f.bit
      · simp [srWithFlag, h, hk, h']
      · have : k - f.bit ≠ 0 := by omega
        simp [srWithFlag, h, hk, h', this]
    · subst h; simp [srWithFlag, hf]
    · by_cases h' : k < f.bit
      · simp [srWithFlag, h, hk, h']
      · have : k - f.bit ≠ 0 := by omega
        simp [srWithFlag, h, hk, h', this]
  · have hne : k ≠ f.bit := by omega
    have hk' : 32 ≤ k := by omega
    rw [if_neg hne, BitVec.getLsbD_of_ge _ _ hk', BitVec.getLsbD_of_ge _ _ hk']

theorem msb_eq_toInt_neg (v : Word) : v.msb = decide (v.toInt < 0) := BitVec.msb_eq_toInt

theorem eq_zero_iff_toNat (v : Word) : v = 0 ↔ v.toNat = 0 := by
  rw [← BitVec.toNat_inj]; rfl

theorem mask_clears_zn_bit {k : Nat} (h2 : 2 ≤ k) (hk : k < 32) : (0xFFFFFFFC : Word).getLsbD k = true := by
  have h : ∀ j : Fin 32, 2 ≤ j.val → (0xFFFFFFFC : Word).getLsbD j.val = true := by decide
  exact h ⟨k, hk⟩ h2

/-- R66: Zero. -/
theorem srWithZN_zero (sr v : Word) : (srWithZN sr v).getLsbD 0 = decide (v.toNat = 0) := by
  by_cases h : v = 0
  · subst h; simp [srWithZN]
  · have h' : ¬ v.toNat = 0 := fun e => h ((eq_zero_iff_toNat v).2 e)
    simp only [srWithZN, h, if_false, h', decide_false]
    split <;> simp

/-- R66: Negative. -/
theorem srWithZN_negative (sr v : Word) : (srWithZN sr v).getLsbD 1 = decide (v.toInt < 0) := by
  rw [← msb_eq_toInt_neg]
  have hz : (if v = 0 then (0x1 : Word) else 0x0).getLsbD 1 = false := by split <;> decide
  have hm : (0xFFFFFFFC : Word).getLsbD 1 = false := by decide
  have hn : (if v.msb then (0x2 : Word) else 0x0).getLsbD 1 = v.msb := by cases v.msb <;> decide
  simp only [srWithZN, BitVec.getLsbD_or, BitVec.getLsbD_and, hz, hm, hn, Bool.and_false, Bool.or_false, Bool.false_or]

/-- R66: bits 31:2 are unchanged. -/
theorem srWithZN_kept (sr v : Word) {k : Nat} (h2 : 2 ≤ k) : (srWithZN sr v).getLsbD k = sr.getLsbD k := by
  by_cases hk : k < 32
  · have hm := mask_clears_zn_bit h2 hk
    have h1 : (0x1#32).getLsbD k = false := by
      have h : ∀ j : Fin 32, 2 ≤ j.val → (0x1#32).getLsbD j.val = false := by decide
      exact h ⟨k, hk⟩ h2
    have h3 : (0x2#32).getLsbD k = false := by
      have h : ∀ j : Fin 32, 2 ≤ j.val → (0x2#32).getLsbD j.val = false := by decide
      exact h ⟨k, hk⟩ h2
    have hz : (if v = 0 then (0x1 : Word) else 0x0).getLsbD k = false := by
      split
      · exact h1
      · simp
    have hn : (if v.msb then (0x2 : Word) else 0x0).getLsbD k = false := by
      split
      · exact h3
      · simp
    simp only [srWithZN, BitVec.getLsbD_or, BitVec.getLsbD_and, hm, hz, hn, Bool.and_true, Bool.or_false]
  · rw [BitVec.getLsbD_of_ge _ _ (by omega), BitVec.getLsbD_of_ge _ _ (by omega)]

/-- R66 in one lemma, one bit at a time. -/
theorem srWithZN_bit (sr v : Word) (k : Nat) :
    (srWithZN sr v).getLsbD k =
      if k = 0 then decide (v.toNat = 0) else if k = 1 then decide (v.toInt < 0) else sr.getLsbD k := by
  split
  · next h => rw [h, srWithZN_zero]
  · split
    · next h => rw [h, srWithZN_negative]
    · exact srWithZN_kept sr v (by omega)

end Sys2Proof.Machine
end

