-- ==== Sys2Proof/Laws/Ops.lean ====
section
/-! SUPPORT. Everything each shared operation can do, said once. -/

namespace Sys2Proof.Machine

theorem advance_eq (s : State) : advance s = .next (s.setPc (s.pc + 4)) := rfl

theorem redirect_eq (s : State) (a : Word) : redirect s a = .next (s.setPc a) := rfl

@[simp] theorem withChecked_ok (v : Word) (k : Word → Result) : withChecked (.ok v) k = k v := rfl

@[simp] theorem withChecked_error (f : Fault) (k : Word → Result) : withChecked (.error f) k = .fault f := rfl

/-- A checked value either is there and the instruction goes on, or is a fault and the instruction ends (R62 step 2). -/
theorem withChecked_cases (r : Except Fault Word) (k : Word → Result) :
    (∃ v, r = .ok v ∧ withChecked r k = k v) ∨ (∃ f, r = .error f ∧ withChecked r k = .fault f) := by
  cases r with
  | ok v => exact .inl ⟨v, rfl, rfl⟩
  | error f => exact .inr ⟨f, rfl, rfl⟩

/-- Everything a data read can do (R31). -/
theorem memRead_cases (s : State) (a : Word) :
    (∃ v, s.memRead a = .ok v ∧ aligned a ∧ s.mem.readWord s.params.byteOrder a = some v ∧ s.memFault a = false) ∨
    (s.memRead a = .error (.addressFault a) ∧ s.memFault a = true) := by
  unfold State.memRead State.memFault
  by_cases ha : aligned a
  · cases hv : s.mem.readWord s.params.byteOrder a with
    | none => exact .inr ⟨if_pos ha, by rw [decide_eq_true ha]; rfl⟩
    | some v => exact .inl ⟨v, if_pos ha, ha, rfl, by rw [decide_eq_true ha]; rfl⟩
  · exact .inr ⟨if_neg ha, by rw [decide_eq_false ha]; rfl⟩

/-- MEM_FAULT holds on every misaligned address (R35). -/
theorem memFault_misaligned (s : State) {a : Word} (h : ¬ aligned a) : s.memFault a = true := by
  rw [State.memFault, decide_eq_false h]
  rfl

/-- A data read is decided by data memory and the byte order alone. -/
theorem memRead_congr {s t : State} (hm : t.mem = s.mem) (hp : t.params = s.params) (a : Word) :
    t.memRead a = s.memRead a := by
  simp only [State.memRead, hm, hp]

/-- Both ends of a conditional branch (R82). -/
theorem branchIf_cases (c : Bool) (imm : Imm16) (s : State) :
    (c = true ∧ branchIf c imm s = .next (s.setPc (branchTarget s.params.branchConv s.pc imm))) ∨
    (c = false ∧ branchIf c imm s = .next (s.setPc (s.pc + 4))) := by
  cases c
  · exact .inr ⟨rfl, rfl⟩
  · exact .inl ⟨rfl, rfl⟩

/-- Everything SYSCALL can do (R130, R164 b, R39). -/
theorem execSyscall_cases (s : State) :
    (∃ e, hostAnswer s = .returned e ∧
      execSyscall s = .next ((applyHostEffect (consumeAnswer s) e).setPc (e.redirect.getD (s.pc + 4)))) ∨
    (∃ info left, hostAnswer s = .fault info left ∧ execSyscall s = .fault (.syscallFault info left)) ∨
    (∃ left, hostAnswer s = .endsRun left ∧ execSyscall s = .refused (.runEndedByHost (callNumber s) left)) ∨
    (hostAnswer s = .changesImem ∧ execSyscall s = .refused (.imemChanged (callNumber s))) := by
  unfold execSyscall
  cases h : hostAnswer s with
  | returned e =>
    refine .inl ⟨e, rfl, ?_⟩
    cases hr : e.redirect with
    | none => simp only [hr, advance_eq, applyHostEffect_pc, consumeAnswer_pc, Option.getD_none]
    | some a => simp only [hr, redirect_eq, Option.getD_some]
  | fault info left => exact .inr (.inl ⟨info, left, rfl, rfl⟩)
  | endsRun left => exact .inr (.inr (.inl ⟨left, rfl, rfl⟩))
  | changesImem => exact .inr (.inr (.inr ⟨rfl, rfl⟩))

/-- Everything the fetch can do, in the order of R147. -/
theorem fetch_cases (e : Enc) (s : State) :
    (∃ w i, aligned s.pc ∧ s.fetchWord = some w ∧ decodeWord e w = .ok i ∧ fetch e s = .ok i) ∨
    (¬ aligned s.pc ∧ fetch e s = .error (.fault (.fetchMisaligned s.pc))) ∨
    (aligned s.pc ∧ s.fetchWord = none ∧ fetch e s = .error (.refused (.endOfProgram s.pc))) ∨
    (∃ w r, aligned s.pc ∧ s.fetchWord = some w ∧ decodeWord e w = .error r ∧
      fetch e s = .error (.fault (.illegalInstruction w))) := by
  unfold fetch
  by_cases ha : aligned s.pc
  · cases hw : s.fetchWord with
    | none => exact .inr (.inr (.inl ⟨ha, rfl, by simp [ha]⟩))
    | some w =>
      cases hd : decodeWord e w with
      | ok i => exact .inl ⟨w, i, ha, rfl, hd, by simp [ha, hd]⟩
      | error r => exact .inr (.inr (.inr ⟨w, r, ha, rfl, hd, by simp [ha, hd, raise]⟩))
  · exact .inr (.inl ⟨ha, by simp [ha, raise]⟩)

/-- The step is the one of ENC_SPEC. -/
theorem step_eq (s : State) : step s = stepWith encSpec s := rfl

/-- The machine's own step is no further case beside the steps under every ENC. -/
theorem stepWith_of_step {e : Enc} {s t : State} (h : stepWith e s = .next t ∨ (e = encSpec ∧ step s = .next t)) :
    stepWith e s = .next t := by
  obtain h | ⟨rfl, h⟩ := h
  · exact h
  · exact h

/-- A step that answers a next state ran a decoded instruction. -/
theorem stepWith_next {e : Enc} {s t : State} (h : stepWith e s = .next t) :
    ∃ w i, aligned s.pc ∧ s.fetchWord = some w ∧ decodeWord e w = .ok i ∧ exec i s = .next t := by
  obtain ⟨w, i, ha, hw, hd, hf⟩ | ⟨-, hf⟩ | ⟨-, -, hf⟩ | ⟨w, r, -, -, -, hf⟩ := fetch_cases e s <;>
    rw [stepWith, hf] at h
  · exact ⟨w, i, ha, hw, hd, h⟩
  all_goals cases h

end Sys2Proof.Machine
end

