-- ==== Sys2Proof/Laws/Exec.lean ====
section
/-! SUPPORT. What each meaning answers, with its operations written out: the lemmas later proofs cite instead of
unfolding a meaning. -/

namespace Sys2Proof.Machine

variable {s t : State}

theorem execAdd_next {rs rt rd : Reg} (h : exec (.add rs rt rd) s = .next t) :
    ∃ y, checkedAdd (s.readReg rs) (s.readReg rt) = .ok y ∧ t = (s.writeReg rd y).setPc (s.pc + 4) := by
  obtain ⟨v, hr, he⟩ | ⟨f, hr, he⟩ := withChecked_cases (checkedAdd (s.readReg rs) (s.readReg rt))
    (fun y => advance (s.writeReg rd y))
  · exact ⟨v, hr, (Host.Outcome.next.inj (he.symm.trans h)).symm⟩
  · cases he.symm.trans h

theorem execSub_next {rs rt rd : Reg} (h : exec (.sub rs rt rd) s = .next t) :
    ∃ y, checkedSub (s.readReg rs) (s.readReg rt) = .ok y ∧ t = (s.writeReg rd y).setPc (s.pc + 4) := by
  obtain ⟨v, hr, he⟩ | ⟨f, hr, he⟩ := withChecked_cases (checkedSub (s.readReg rs) (s.readReg rt))
    (fun y => advance (s.writeReg rd y))
  · exact ⟨v, hr, (Host.Outcome.next.inj (he.symm.trans h)).symm⟩
  · cases he.symm.trans h

theorem execAddi_next {rs rt : Reg} {imm : Imm16} (h : exec (.addi rs rt imm) s = .next t) :
    ∃ y, checkedAdd (s.readReg rs) (sext32 imm) = .ok y ∧ t = (s.writeReg rt y).setPc (s.pc + 4) := by
  obtain ⟨v, hr, he⟩ | ⟨f, hr, he⟩ := withChecked_cases (checkedAdd (s.readReg rs) (sext32 imm))
    (fun y => advance (s.writeReg rt y))
  · exact ⟨v, hr, (Host.Outcome.next.inj (he.symm.trans h)).symm⟩
  · cases he.symm.trans h

theorem execLw_next {rs rt : Reg} {imm : Imm16} (h : exec (.lw rs rt imm) s = .next t) :
    ∃ v, s.memRead (loadAddress rs imm s) = .ok v ∧ t = ((s.writeReg rt v).updateZN v).setPc (s.pc + 4) := by
  obtain ⟨v, hr, he⟩ | ⟨f, hr, he⟩ := withChecked_cases (s.memRead (loadAddress rs imm s))
    (fun v => advance ((s.writeReg rt v).updateZN v))
  · exact ⟨v, hr, (Host.Outcome.next.inj (he.symm.trans h)).symm⟩
  · cases he.symm.trans h

/-- The state DEPLOYBITS leaves for a quotient, but for the pc. -/
theorem execDeploybits_next {rs rt rd : Reg} (h : exec (.deploybits rs rt rd) s = .next t) :
    ∃ q, checkedDiv s.params.divMinNeg1 (s.readReg rs) (s.readReg rt) = .ok q ∧
      ((q ≠ 0 ∧ t = (((s.writeReg rd q).updateZN q).setFlag .danger false).setPc (s.pc + 4)) ∨
        (q = 0 ∧ t = ((s.writeReg rd q).updateZN q).setPc (s.pc + 4))) := by
  change execDeploybits rs rt rd s = .next t at h
  unfold execDeploybits at h
  cases hr : checkedDiv s.params.divMinNeg1 (s.readReg rs) (s.readReg rt) with
  | error f => rw [hr] at h; cases h
  | ok q =>
    rw [hr, withChecked_ok] at h
    refine ⟨q, rfl, ?_⟩
    by_cases hq : q = 0
    · simp only [hq, ne_eq, not_true_eq_false, if_false] at h ⊢
      exact .inr ⟨trivial, (Host.Outcome.next.inj h).symm⟩
    · simp only [hq, ne_eq, not_false_eq_true, if_true] at h ⊢
      exact .inl ⟨trivial, (Host.Outcome.next.inj h).symm⟩

/-- The two paths of TRANSAM (R122). -/
theorem execTransam_next (rs rd : Reg) (s : State) :
    (0 < (s.readReg enReg).toInt ∧ exec (.transam rs rd) s = .next
      (((((s.writeReg rd (truncMul (s.readReg rs) 3)).spendEnergy).setFlag .transam true).updateZN
        (truncMul (s.readReg rs) 3)).setPc (s.pc + 4))) ∨
    (¬ 0 < (s.readReg enReg).toInt ∧ exec (.transam rs rd) s = .next
      ((((s.writeReg rd (s.readReg rs)).setFlag .transam false).updateZN (s.readReg rs)).setPc (s.pc + 4))) := by
  by_cases h : 0 < (s.readReg enReg).toInt
  · exact .inl ⟨h, if_pos h⟩
  · exact .inr ⟨h, if_neg h⟩

/-- The two paths of AUTOEVADE (R107). -/
theorem execAutoevade_next (a : Target26) (s : State) :
    (s.getFlag .danger = true ∧ exec (.autoevade a) s = .next (s.setPc (jumpTarget s.pc a))) ∨
    (s.getFlag .danger = false ∧ exec (.autoevade a) s = .next (s.setPc (s.pc + 4))) := by
  cases h : s.getFlag .danger
  · exact .inr ⟨rfl, if_neg (by simp [h])⟩
  · exact .inl ⟨rfl, if_pos h⟩

/-- An instruction other than SYSCALL changes registers and the pc, and nothing else. -/
theorem exec_next_regs_pc {i : Instr} (hi : i ≠ .syscall) (h : exec i s = .next t) :
    t.mem = s.mem ∧ t.imem = s.imem ∧ t.handler = s.handler ∧ t.answers = s.answers ∧ t.draws = s.draws ∧
      t.params = s.params := by
  cases i with
  | syscall => exact absurd rfl hi
  | add rs rt rd => obtain ⟨y, -, rfl⟩ := execAdd_next h; exact ⟨rfl, rfl, rfl, rfl, rfl, rfl⟩
  | sub rs rt rd => obtain ⟨y, -, rfl⟩ := execSub_next h; exact ⟨rfl, rfl, rfl, rfl, rfl, rfl⟩
  | addi rs rt imm => obtain ⟨y, -, rfl⟩ := execAddi_next h; exact ⟨rfl, rfl, rfl, rfl, rfl, rfl⟩
  | lw rs rt imm => obtain ⟨y, -, rfl⟩ := execLw_next h; exact ⟨rfl, rfl, rfl, rfl, rfl, rfl⟩
  | deploybits rs rt rd =>
    obtain ⟨q, -, ⟨-, rfl⟩ | ⟨-, rfl⟩⟩ := execDeploybits_next h <;> exact ⟨rfl, rfl, rfl, rfl, rfl, rfl⟩
  | transam rs rd =>
    obtain ⟨-, he⟩ | ⟨-, he⟩ := execTransam_next rs rd s <;> cases he.symm.trans h <;>
      exact ⟨rfl, rfl, rfl, rfl, rfl, rfl⟩
  | autoevade a =>
    obtain ⟨-, he⟩ | ⟨-, he⟩ := execAutoevade_next a s <;> cases he.symm.trans h <;>
      exact ⟨rfl, rfl, rfl, rfl, rfl, rfl⟩
  | beq rs rt imm =>
    obtain ⟨-, he⟩ | ⟨-, he⟩ := branchIf_cases (s.readReg rs == s.readReg rt) imm s <;> cases he.symm.trans h <;>
      exact ⟨rfl, rfl, rfl, rfl, rfl, rfl⟩
  | bne rs rt imm =>
    obtain ⟨-, he⟩ | ⟨-, he⟩ := branchIf_cases (s.readReg rs != s.readReg rt) imm s <;> cases he.symm.trans h <;>
      exact ⟨rfl, rfl, rfl, rfl, rfl, rfl⟩
  | cbeq rs rt imm =>
    obtain ⟨-, he⟩ | ⟨-, he⟩ := branchIf_cases (s.readReg rs == s.readReg rt) imm s <;> cases he.symm.trans h <;>
      exact ⟨rfl, rfl, rfl, rfl, rfl, rfl⟩
  | mul rs rt rd => cases h; exact ⟨rfl, rfl, rfl, rfl, rfl, rfl⟩
  | xor rs rt rd => cases h; exact ⟨rfl, rfl, rfl, rfl, rfl, rfl⟩
  | or rs rt rd => cases h; exact ⟨rfl, rfl, rfl, rfl, rfl, rfl⟩
  | and rs rt rd => cases h; exact ⟨rfl, rfl, rfl, rfl, rfl, rfl⟩
  | slt rs rt rd => cases h; exact ⟨rfl, rfl, rfl, rfl, rfl, rfl⟩
  | jr rs => cases h; exact ⟨rfl, rfl, rfl, rfl, rfl, rfl⟩
  | lockon rs rt rd => cases h; exact ⟨rfl, rfl, rfl, rfl, rfl, rfl⟩
  | shieldup rs => cases h; exact ⟨rfl, rfl, rfl, rfl, rfl, rfl⟩
  | energize rs => cases h; exact ⟨rfl, rfl, rfl, rfl, rfl, rfl⟩
  | boost rs rd => cases h; exact ⟨rfl, rfl, rfl, rfl, rfl, rfl⟩
  | thrust rs rt imm => cases h; exact ⟨rfl, rfl, rfl, rfl, rfl, rfl⟩
  | scan rt imm => cases h; exact ⟨rfl, rfl, rfl, rfl, rfl, rfl⟩
  | j a => cases h; exact ⟨rfl, rfl, rfl, rfl, rfl, rfl⟩
  | call a => cases h; exact ⟨rfl, rfl, rfl, rfl, rfl, rfl⟩
  | callbase a => cases h; exact ⟨rfl, rfl, rfl, rfl, rfl, rfl⟩

/-- A SYSCALL that answers a next state was given an effect (R130). -/
theorem execSyscall_next (h : exec .syscall s = .next t) :
    ∃ e, hostAnswer s = .returned e ∧
      t = (applyHostEffect (consumeAnswer s) e).setPc (e.redirect.getD (s.pc + 4)) := by
  obtain ⟨e, ha, he⟩ | ⟨info, left, -, he⟩ | ⟨left, -, he⟩ | ⟨-, he⟩ := execSyscall_cases s
  · exact ⟨e, ha, (Host.Outcome.next.inj (he.symm.trans h)).symm⟩
  all_goals cases he.symm.trans h

end Sys2Proof.Machine
end

