-- ==== Sys2Proof/Laws/Frame.lean ====
section
/-! SUPPORT. How the updates of State meet the frames of Safety.lean: one lemma per shared operation. -/

namespace Sys2Proof.Machine

variable {s t u : State} {ws : List Reg}

theorem SameOutside.refl (s : State) : SameOutside [] s s :=
  ⟨fun _ _ => rfl, fun _ => rfl, fun _ => rfl, rfl, rfl, rfl, rfl⟩

theorem SameOutside.mono {vs : List Reg} (h : SameOutside ws s t) (hs : ∀ r ∈ ws, r ∈ vs) : SameOutside vs s t :=
  ⟨fun r hr => h.1 r fun hm => hr (hs r hm), h.2⟩

/-- The pc is in no frame. -/
theorem SameOutside.setPc (h : SameOutside ws s t) (a : Word) : SameOutside ws s (t.setPc a) := h

theorem SameOutside.writeReg (h : SameOutside ws s t) {r : Reg} (hr : r ∈ ws) (v : Word) :
    SameOutside ws s (t.writeReg r v) :=
  ⟨fun q hq => (readReg_writeReg_ne t r q v fun e => hq (e ▸ hr)).trans (h.1 q hq), h.2⟩

theorem SameOutside.setFlag (h : SameOutside ws s t) (hr : srReg ∈ ws) (f : Flag) (b : Bool) :
    SameOutside ws s (t.setFlag f b) := h.writeReg hr _

theorem SameOutside.updateZN (h : SameOutside ws s t) (hr : srReg ∈ ws) (v : Word) :
    SameOutside ws s (t.updateZN v) := h.writeReg hr _

theorem SameOutside.spendEnergy (h : SameOutside ws s t) (hr : enReg ∈ ws) : SameOutside ws s t.spendEnergy :=
  h.writeReg hr _

/-- One register write. -/
theorem sameOutside_write (s : State) (r : Reg) (v : Word) : SameOutside [r] s (s.writeReg r v) :=
  ((SameOutside.refl s).mono (by simp)).writeReg (by simp) v

/-- SR after the first write of an instruction (R62 step 3). -/
theorem sr_writeReg (s : State) (d : Reg) (v : Word) : (s.writeReg d v).readReg srReg = srAfterWrite s d v := by
  rw [readReg_writeReg, srAfterWrite]
  by_cases h : d = srReg
  · rw [if_pos h, if_pos h.symm]
  · rw [if_neg h, if_neg fun e => h e.symm]

theorem sr_setFlag (s : State) (f : Flag) (b : Bool) :
    (s.setFlag f b).readReg srReg = srWithFlag (s.readReg srReg) f b := readReg_writeReg_self ..

theorem sr_updateZN (s : State) (v : Word) : (s.updateZN v).readReg srReg = srWithZN (s.readReg srReg) v :=
  readReg_writeReg_self ..

theorem znOf_updateZN (s : State) (v : Word) : ZnOf v ((s.updateZN v).readReg srReg) := by
  rw [sr_updateZN]
  exact ⟨srWithZN_zero _ _, srWithZN_negative _ _⟩

/-- A destination write followed by UpdateZN, the common tail of the suit-state instructions and LW. -/
theorem wroteWithZN (s : State) (d : Reg) (v : Word) :
    WroteWithZN [] d v s (((s.writeReg d v).updateZN v).setPc (s.pc + 4)) := by
  refine ⟨fun h => ?_, znOf_updateZN _ v, fun k hk => ?_, rfl, ?_⟩
  · rw [setPc_readReg, readReg_updateZN, if_neg h, readReg_writeReg_self]
  · rw [setPc_readReg, sr_updateZN, sr_writeReg, srWithZN_bit]
    simp only [List.mem_cons, List.not_mem_nil, or_false, not_or] at hk
    rw [if_neg hk.1, if_neg hk.2]
  · exact (((((SameOutside.refl s).mono (by simp)).writeReg (by simp) v).updateZN (by simp) v).setPc _)

end Sys2Proof.Machine
end

