-- ==== Sys2Proof/Laws/PerInstr.lean ====
section
/-! SUPPORT. One lemma per instruction: its word under ENC_SPEC selects its row of the opcode table
(30_encoding.md R50). -/

namespace Sys2Proof

/-- A masked word, one bit at a time. -/
theorem and_eq_of_bits {w m p : Word} (h : ∀ k : Fin 32, (w.getLsbD k.val && m.getLsbD k.val) = p.getLsbD k.val) :
    w &&& m = p := by
  apply BitVec.eq_of_getLsbD_eq
  intro k hk
  rw [BitVec.getLsbD_and]
  exact h ⟨k, hk⟩

section
variable (c : BitVec 6) (rs rt rd : Reg) (imm : Imm16) (a : Target26)

theorem rWord_mask_three : rWord c rs rt rd &&& 0xFC0007FF = rWord c 0 0 0 := by
  apply and_eq_of_bits
  intro k
  rw [rWord_bit, rWord_bit]
  fin_cases k <;> simp [regBits]

theorem rWord_mask_two : rWord c rs 0 rd &&& 0xFC1F07FF = rWord c 0 0 0 := by
  apply and_eq_of_bits
  intro k
  rw [rWord_bit, rWord_bit]
  fin_cases k <;> simp [regBits]

theorem rWord_mask_one : rWord c rs 0 0 &&& 0xFC1FFFFF = rWord c 0 0 0 := by
  apply and_eq_of_bits
  intro k
  rw [rWord_bit, rWord_bit]
  fin_cases k <;> simp [regBits]

theorem iWord_mask : iWord c rs rt imm &&& 0xFC000000 = iWord c 0 0 0 := by
  apply and_eq_of_bits
  intro k
  rw [iWord_bit, iWord_bit]
  fin_cases k <;> simp [regBits]

theorem iWord_mask_scan : iWord c 0 rt imm &&& 0xFFE00000 = iWord c 0 0 0 := by
  apply and_eq_of_bits
  intro k
  rw [iWord_bit, iWord_bit]
  fin_cases k <;> simp [regBits]

theorem jWord_mask : jWord c a &&& 0xFC000000 = jWord c 0 := by
  apply and_eq_of_bits
  intro k
  rw [jWord_bit, jWord_bit]
  fin_cases k <;> simp

end

end Sys2Proof

namespace Sys2Proof.Laws.OpcodeRow

/-- The word of i lies in i's row: (word & mask) = match. -/
def Statement (i : Instr) : Prop := i.mnemonic.selectedBy (encodeWord encSpec i)

theorem add (rs rt rd : Reg) : Statement (.add rs rt rd) := (rWord_mask_three ..).trans (by exact of_decide_eq_true rfl)
theorem sub (rs rt rd : Reg) : Statement (.sub rs rt rd) := (rWord_mask_three ..).trans (by exact of_decide_eq_true rfl)
theorem mul (rs rt rd : Reg) : Statement (.mul rs rt rd) := (rWord_mask_three ..).trans (by exact of_decide_eq_true rfl)
theorem xor (rs rt rd : Reg) : Statement (.xor rs rt rd) := (rWord_mask_three ..).trans (by exact of_decide_eq_true rfl)
theorem or (rs rt rd : Reg) : Statement (.or rs rt rd) := (rWord_mask_three ..).trans (by exact of_decide_eq_true rfl)
theorem and (rs rt rd : Reg) : Statement (.and rs rt rd) := (rWord_mask_three ..).trans (by exact of_decide_eq_true rfl)
theorem slt (rs rt rd : Reg) : Statement (.slt rs rt rd) := (rWord_mask_three ..).trans (by exact of_decide_eq_true rfl)
theorem lockon (rs rt rd : Reg) : Statement (.lockon rs rt rd) := (rWord_mask_three ..).trans (by exact of_decide_eq_true rfl)
theorem deploybits (rs rt rd : Reg) : Statement (.deploybits rs rt rd) := (rWord_mask_three ..).trans (by exact of_decide_eq_true rfl)
theorem jr (rs : Reg) : Statement (.jr rs) := (rWord_mask_one ..).trans (by exact of_decide_eq_true rfl)
theorem shieldup (rs : Reg) : Statement (.shieldup rs) := (rWord_mask_one ..).trans (by exact of_decide_eq_true rfl)
theorem energize (rs : Reg) : Statement (.energize rs) := (rWord_mask_one ..).trans (by exact of_decide_eq_true rfl)
theorem transam (rs rd : Reg) : Statement (.transam rs rd) := (rWord_mask_two ..).trans (by exact of_decide_eq_true rfl)
theorem boost (rs rd : Reg) : Statement (.boost rs rd) := (rWord_mask_two ..).trans (by exact of_decide_eq_true rfl)
theorem syscall : Statement .syscall := show _ &&& _ = _ by decide
theorem beq (rs rt : Reg) (imm : Imm16) : Statement (.beq rs rt imm) := (iWord_mask ..).trans (by exact of_decide_eq_true rfl)
theorem bne (rs rt : Reg) (imm : Imm16) : Statement (.bne rs rt imm) := (iWord_mask ..).trans (by exact of_decide_eq_true rfl)
theorem addi (rs rt : Reg) (imm : Imm16) : Statement (.addi rs rt imm) := (iWord_mask ..).trans (by exact of_decide_eq_true rfl)
theorem lw (rs rt : Reg) (imm : Imm16) : Statement (.lw rs rt imm) := (iWord_mask ..).trans (by exact of_decide_eq_true rfl)
theorem cbeq (rs rt : Reg) (imm : Imm16) : Statement (.cbeq rs rt imm) := (iWord_mask ..).trans (by exact of_decide_eq_true rfl)
theorem thrust (rs rt : Reg) (imm : Imm16) : Statement (.thrust rs rt imm) := (iWord_mask ..).trans (by exact of_decide_eq_true rfl)
theorem scan (rt : Reg) (imm : Imm16) : Statement (.scan rt imm) := (iWord_mask_scan ..).trans (by exact of_decide_eq_true rfl)
theorem j (target : Target26) : Statement (.j target) := (jWord_mask ..).trans (by exact of_decide_eq_true rfl)
theorem call (target : Target26) : Statement (.call target) := (jWord_mask ..).trans (by exact of_decide_eq_true rfl)
theorem callbase (target : Target26) : Statement (.callbase target) := (jWord_mask ..).trans (by exact of_decide_eq_true rfl)
theorem autoevade (target : Target26) : Statement (.autoevade target) := (jWord_mask ..).trans (by exact of_decide_eq_true rfl)

end Sys2Proof.Laws.OpcodeRow
end

