-- ==== Sys2Proof/Tests/Slice0.lean ====
section
/-! SUPPORT. Tests. Every expected result is a vector of 95_test_vectors.md (its id stands in the comment), or is worked out
by hand from the encoding tables of 30_encoding.md. -/

namespace Sys2Proof.Tests

open Sys2Proof Sys2Proof.Machine

/-! ## Ill-formed terms that the checks refuse -/

/-- Two R-format instructions with one funct. -/
theorem test_wf_functs_distinct : ¬ ({ encSpec with sub := encSpec.add } : Enc).functsDistinct := by decide

/-- Two opcodes alike. -/
theorem test_wf_opcodes_distinct : ¬ ({ encSpec with j := encSpec.beq } : Enc).opcodesDistinct := by decide

/-- An I-format opcode 000000. -/
theorem test_wf_opcodes_nonzero : ¬ ({ encSpec with lw := 0 } : Enc).opcodesNonzero := by decide

/-- Two fault kinds with one reason code. -/
theorem test_wf_fault_codes : ¬ ({ defaultParams.faultCode with addressFault := 1 } : FaultCodes).wf := by decide

/-- An ENC that breaks one constraint, and parameters that break theirs. -/
theorem test_wf_enc_params : ¬ ({ encSpec with scan := 0 } : Enc).wf ∧
    ¬ ({ defaultParams with faultCode := { defaultParams.faultCode with divideByZero := 1 } } : Params).wf := by decide

/-- Addresses out of order, listed twice, and past the address space. -/
theorem test_wf_memory :
    ¬ Memory.wf [(4, 1), (0, 1)] ∧ ¬ Memory.wf [(4, 1), (4, 2)] ∧ ¬ Memory.wf [(4294967296, 1)] := by decide

/-! ## Decoding: one word per constructor, written out from R41 to R50 -/

theorem test_decode_add : decodeWord encSpec 0b00000000001000100001100000000001 = .ok (.add 1 2 3) := by decide
theorem test_decode_sub : decodeWord encSpec 0b00000011111000100001100000000010 = .ok (.sub 31 2 3) := by decide
theorem test_decode_mul : decodeWord encSpec 0b00000000001111110001100000000011 = .ok (.mul 1 31 3) := by decide
theorem test_decode_xor : decodeWord encSpec 0b00000011011110111101100000000100 = .ok (.xor 27 27 27) := by decide
theorem test_decode_or : decodeWord encSpec 0b00000000001000101111100000000101 = .ok (.or 1 2 31) := by decide
theorem test_decode_and : decodeWord encSpec 0b00000010000010000010000000000110 = .ok (.and 16 8 4) := by decide
theorem test_decode_slt : decodeWord encSpec 0b00000000000000010001000000000111 = .ok (.slt 0 1 2) := by decide
theorem test_decode_jr : decodeWord encSpec 0b00000000111000000000000000001000 = .ok (.jr 7) := by decide
theorem test_decode_lockon : decodeWord encSpec 0b00000000101110010011000000001001 = .ok (.lockon 5 25 6) := by decide
theorem test_decode_shieldup : decodeWord encSpec 0b00000000100000000000000000001010 = .ok (.shieldup 4) := by decide
theorem test_decode_transam : decodeWord encSpec 0b00000000001000001100100000001011 = .ok (.transam 1 25) := by decide
theorem test_decode_deploybits : decodeWord encSpec 0b00000000100000100011000000001100 = .ok (.deploybits 4 2 6) := by decide
theorem test_decode_energize : decodeWord encSpec 0b00000010101000000000000000001101 = .ok (.energize 21) := by decide
theorem test_decode_boost : decodeWord encSpec 0b00000000001000001101100000001110 = .ok (.boost 1 27) := by decide
theorem test_decode_syscall : decodeWord encSpec 0b00000000000000000000000000001111 = .ok (.syscall) := by decide
theorem test_decode_beq : decodeWord encSpec 0b00000100001000100000000000000011 = .ok (.beq 1 2 3) := by decide
theorem test_decode_bne : decodeWord encSpec 0b00001000001000101111111111111110 = .ok (.bne 1 2 0xFFFE) := by decide
theorem test_decode_addi : decodeWord encSpec 0b00001100001000101111111110011100 = .ok (.addi 1 2 0xFF9C) := by decide
theorem test_decode_lw : decodeWord encSpec 0b00010001010000011000000000000000 = .ok (.lw 10 1 0x8000) := by decide
theorem test_decode_cbeq : decodeWord encSpec 0b00010100100001010000000100001001 = .ok (.cbeq 4 5 0x0109) := by decide
theorem test_decode_thrust : decodeWord encSpec 0b00011000010000111111111111111111 = .ok (.thrust 2 3 0xFFFF) := by decide
theorem test_decode_scan : decodeWord encSpec 0b00011100000110110000000000000010 = .ok (.scan 27 2) := by decide
theorem test_decode_j : decodeWord encSpec 0b00100000000000000000000011010100 = .ok (.j 0xD4) := by decide
theorem test_decode_call : decodeWord encSpec 0b00100110000000000000000000000001 = .ok (.call 0x2000001) := by decide
theorem test_decode_callbase : decodeWord encSpec 0b00101011111111111111111111111111 = .ok (.callbase 0x3FFFFFF) := by decide
theorem test_decode_autoevade : decodeWord encSpec 0b00101100000000000000000010001010 = .ok (.autoevade 0x8A) := by decide

/-- E1 to E5, through the bytes in both orders. -/
theorem test_decode_bytes :
    decodeBytes encSpec .little [0x01, 0xF8, 0xFF, 0x03] = .ok (.add 31 31 31, []) ∧
      decodeBytes encSpec .big [0x0C, 0x22, 0xFF, 0x9C, 0x7F] = .ok (.addi 1 2 0xFF9C, [0x7F]) ∧
      decodeBytes encSpec .little [0x01, 0xF8, 0xFF] = .error .truncated := by decide

/-- E6 to E13: every way to be no instruction. -/
theorem test_decode_rejects :
    decodeWord encSpec 0x00000000 = .error (.unknownFunct 0) ∧
      decodeWord encSpec 0x00220008 = .error (.unusedFieldNotZero .jr) ∧
      decodeWord encSpec 0xFFFFFFFF = .error (.unknownOpcode 0b111111) := by decide

theorem test_decodeTableWord :
    decodeTableWord 32 0x2BFFFFFF = some (.callbase 0x3FFFFFF) ∧ decodeTableWord 32 0x30000000 = none := by decide

theorem test_encode : encode (.boost 1 27) = [0x0020D80E] ∧ encode (.scan 27 2) = [0x1C1B0002] := by decide

/-! ## One step -/

/-- The state after reset with registers given. -/
def start (rs : List (Reg × Word)) : State := rs.foldl (fun s w => s.writeReg w.1 w.2) State.reset

/-- One step on an instruction word, from registers given. -/
def run (rs : List (Reg × Word)) (w : Nat) : Result := step ((start rs).withFetchWord 32 w)

/-- The same with the pc of the spec's control-transfer vectors. -/
def runAt (pc : Word) (rs : List (Reg × Word)) (w : Nat) : Result := step (((start rs).setPc pc).withFetchWord 32 w)

/-- The pc and some registers of a next state. -/
def seen (o : Result) (rs : List Reg) : Option (List Word) :=
  match o with
  | .next t => some (t.pc :: rs.map t.readReg)
  | _ => none

/-- The fault of an outcome. -/
def faultOf (o : Result) : Option Fault :=
  match o with
  | .fault f => some f
  | _ => none

/-- The refusal of an outcome. -/
def refusalOf (o : Result) : Option Refusal :=
  match o with
  | .refused r => some r
  | _ => none

/-- The data memory of the spec's load vectors. -/
def loadMem : Memory :=
  Memory.writeWord .little (Memory.writeWord .little (Memory.writeWord .little [] 0x10010000 0xFFFFFFF6) 0x10010004 0)
    0x10010008 0x12345678

/-- One step of a load on it. -/
def runLoad (rs : List (Reg × Word)) (w : Nat) : Result := step (((start rs).setMem loadMem).withFetchWord 32 w)

/-- I1. -/
theorem test_add :
    seen (run [(1, 5), (2, 7)] 0x00221801) [3, 27] = some [0x00400004, 0x0000000C, 0xA5A5001B] := by decide

/-- I2. -/
theorem test_add_overflow : faultOf (run [(1, 0x7FFFFFFF), (2, 1)] 0x00221801) = some (.arithmeticOverflow) := by decide

/-- I4. -/
theorem test_sub :
    seen (run [(1, 5), (2, 7)] 0x00221802) [3, 27] = some [0x00400004, 0xFFFFFFFE, 0xA5A5001B] := by decide

/-- I5. -/
theorem test_sub_overflow : faultOf (run [(1, 0x80000000), (2, 1)] 0x00221802) = some (.arithmeticOverflow) := by decide

/-- I6. -/
theorem test_mul :
    seen (run [(1, 0xFFFFFFFD), (2, 7)] 0x00221803) [3, 27] = some [0x00400004, 0xFFFFFFEB, 0xA5A5001B] := by decide

/-- I7. -/
theorem test_mul_truncates :
    seen (run [(1, 0x00010000), (2, 0x00010000)] 0x00221803) [3] = some [0x00400004, 0] := by decide

/-- I8. -/
theorem test_xor :
    seen (run [(1, 0xFF00FF00), (2, 0x0FF00FF0)] 0x00221804) [3] = some [0x00400004, 0xF0F0F0F0] := by decide

/-- I16. -/
theorem test_xor_sr : seen (run [] 0x037BD804) [27] = some [0x00400004, 0] := by decide

/-- I9. -/
theorem test_or :
    seen (run [(1, 0xFF00FF00), (2, 0x0FF00FF0)] 0x00221805) [3] = some [0x00400004, 0xFFF0FFF0] := by decide

/-- I10. -/
theorem test_and :
    seen (run [(1, 0xFF00FF00), (2, 0x0FF00FF0)] 0x00221806) [3] = some [0x00400004, 0x0F000F00] := by decide

/-- I11. -/
theorem test_slt : seen (run [(1, 0xFFFFFFFF), (2, 1)] 0x00221807) [3] = some [0x00400004, 1] := by decide

/-- I12. -/
theorem test_slt_signed :
    seen (run [(1, 0x7FFFFFFF), (2, 0x80000000)] 0x00221807) [3] = some [0x00400004, 0] := by decide

/-- I13. -/
theorem test_addi : seen (run [(1, 0x64)] 0x0C22FF9C) [2, 27] = some [0x00400004, 0, 0xA5A5001B] := by decide

/-- I14. -/
theorem test_addi_overflow : faultOf (run [(1, 0x80000000)] 0x0C22FFFF) = some (.arithmeticOverflow) := by decide

/-- T1. -/
theorem test_beq : seen (runAt 0x00400010 [(1, 5), (2, 5)] 0x04220003) [] = some [0x0000000C] := by decide

/-- T2. -/
theorem test_beq_not_taken : seen (runAt 0x00400010 [(1, 5), (2, 6)] 0x04220003) [] = some [0x00400014] := by decide

/-- T3: the field is not sign-extended. -/
theorem test_bne : seen (runAt 0x00400010 [(1, 5), (2, 6)] 0x0822FFFE) [] = some [0x0003FFF8] := by decide

/-- T4. -/
theorem test_bne_not_taken : seen (runAt 0x00400010 [(1, 5), (2, 5)] 0x0822FFFE) [] = some [0x00400014] := by decide

/-- T5. -/
theorem test_cbeq : seen (runAt 0x00400010 [(1, 5), (2, 5)] 0x14220100) [] = some [0x00000400] := by decide

/-- T6. -/
theorem test_jr :
    seen (runAt 0x00400010 [(7, 0x00400014)] 0x00E00008) [7] = some [0x00400014, 0x00400014] := by decide

/-- T7: the pc is copied as it stands. -/
theorem test_jr_misaligned : seen (runAt 0x00400010 [(1, 0x00400016)] 0x00200008) [] = some [0x00400016] := by decide

/-- T8. -/
theorem test_j : seen (run [] 0x20000100) [7] = some [0x00000400, 0xA5A50007] := by decide

/-- T9. -/
theorem test_call :
    seen (runAt 0x00400010 [(27, 0)] 0x24100040) [7, 27] = some [0x00400100, 0x00400014, 0] := by decide

/-- T10. -/
theorem test_callbase :
    seen (runAt 0x00400010 [(27, 0x81)] 0x28100040) [7, 27] = some [0x00400100, 0x00400014, 0x181] := by decide

/-- T11: the link wraps. -/
theorem test_callbase_top :
    seen (runAt 0xFFFFFFFC [(27, 0)] 0x28000000) [7, 27] = some [0xF0000000, 0, 0x100] := by decide

/-- T12. -/
theorem test_autoevade : seen (runAt 0x00400010 [(27, 0x80)] 0x2C100040) [27] = some [0x00400100, 0x80] := by decide

/-- T13. -/
theorem test_autoevade_not_taken :
    seen (runAt 0x00400010 [(27, 0x17F)] 0x2C100040) [27] = some [0x00400014, 0x17F] := by decide

/-- L1. -/
theorem test_lw :
    seen (runLoad [(1, 0x10010004), (27, 0xFFFFFFFC)] 0x1022FFFC) [2, 27] = some [0x00400004, 0xFFFFFFF6, 0xFFFFFFFE] := by decide

/-- L4. -/
theorem test_lw_misaligned : faultOf (runLoad [(1, 0x10010004)] 0x10220002) = some (.addressFault 0x10010006) := by decide

/-- G1. -/
theorem test_lockon :
    seen (run [(1, 5), (2, 5), (27, 2)] 0x00221809) [3, 27] = some [0x00400004, 1, 0x20] := by decide

/-- G4: the flags act on the SR just written. -/
theorem test_lockon_sr :
    seen (run [(1, 5), (2, 6), (27, 0xFFFFFFFF)] 0x0022D809) [27] = some [0x00400004, 1] := by decide

/-- G7. -/
theorem test_shieldup : seen (run [(1, 0x80000000), (27, 3)] 0x0020000A) [27] = some [0x00400004, 0x13] := by decide

/-- G6 (D12). -/
theorem test_shieldup_zero : seen (run [(1, 0), (27, 0x1F3)] 0x0020000A) [27] = some [0x00400004, 0x1E3] := by decide

/-- G11. -/
theorem test_transam :
    seen (run [(1, 0x40000000), (25, 1), (27, 0)] 0x0020180B) [3, 25, 27] = some [0x00400004, 0xC0000000, 0, 0x42] := by decide

/-- G16 (D9). -/
theorem test_transam_sr :
    seen (run [(1, 10), (25, 2), (27, 0xFFFFFFFF)] 0x0020D80B) [25, 27] = some [0x00400004, 1, 0x5C] := by decide

/-- G20: toward zero. -/
theorem test_deploybits :
    seen (run [(1, 0xFFFFFFF9), (2, 2), (27, 0x80)] 0x0022180C) [3, 27] = some [0x00400004, 0xFFFFFFFD, 2] := by decide

/-- G22: DANGER is kept. -/
theorem test_deploybits_zero_quotient :
    seen (run [(1, 2), (2, 5), (27, 0x82)] 0x0022180C) [3, 27] = some [0x00400004, 0, 0x81] := by decide

/-- G25. -/
theorem test_thrust : seen (run [(1, 8), (27, 0)] 0x1822FFFD) [2, 27] = some [0x00400004, 0xFFFFFFFC, 2] := by decide

/-- G26. -/
theorem test_thrust_unchecked :
    seen (run [(1, 0x7FFFFFFC), (27, 0)] 0x18220001) [2, 27] = some [0x00400004, 0x80000000, 2] := by decide

/-- G28. -/
theorem test_energize :
    seen (run [(1, 0x2A), (25, 7), (27, 3)] 0x0020000D) [25, 27] = some [0x00400004, 0x2A, 3] := by decide

/-- G31, with Zero and Negative wrong before. -/
theorem test_scan_ms :
    seen (run [(25, 0x11), (26, 0x80000022), (27, 0x1F2)] 0x1C020002) [2, 27] = some [0x00400004, 0x80000022, 0x1F2] := by decide

/-- G33. -/
theorem test_scan_other :
    seen (run [(25, 0x11), (26, 0x80000022), (27, 0x1F2)] 0x1C02FFFF) [2, 27] = some [0x00400004, 0, 0x1F1] := by decide

/-- G38: bit 31 is lost. -/
theorem test_boost : seen (run [(1, 0x80000000), (27, 0)] 0x0020180E) [3, 27] = some [0x00400004, 0, 1] := by decide

/-- G39 (D9). -/
theorem test_boost_sr : seen (run [(1, 7), (27, 0xFFFFFFFF)] 0x0020D80E) [27] = some [0x00400004, 0xC] := by decide

/-- What a handler that writes x3, a byte of data memory and its own state, and redirects, leaves. -/
def someEffect : HostEffect where
  regWrites := [(3, 1), (3, 2)]
  memWrites := [(0x10010000, some 7), (0x10010001, none)]
  redirect := some 0x00400100
  handler := 9

/-- The state after reset with SYSCALL's answers given (R130), and a SYSCALL loaded. -/
def atSyscall (answers : List SyscallAnswer) : State :=
  { State.reset.setMem loadMem with answers := answers }.withFetchWord 32 0xF

/-- R130: the handler's registers stay, EXU writes nothing of its own. -/
theorem test_syscall : seen (step (atSyscall [.returned someEffect])) [2, 3, 7] =
    some [0x00400100, 0xA5A50002, 2, 0xA5A50007] := by decide

/-- Y1: the call number is x2; R164 b. -/
theorem test_syscall_ends :
    refusalOf (step (atSyscall [.endsRun someEffect])) = some (.runEndedByHost 0xA5A50002 someEffect) := by decide

/-- Another ENC (R49) decodes other words: under it the funct 16 is ADD. -/
theorem test_step_under_another_enc :
    seen (stepWith { encSpec with add := 0b010000 } ((start [(1, 5), (2, 7)]).withFetchWord 32 0x00221810)) [3] =
      some [0x00400004, 12] := by decide

/-- R164 c: from reset with nothing loaded, the run ends before any instruction. -/
theorem test_reset_step : refusalOf (step State.reset) = some (.endOfProgram 0x00400000) := by decide

/-- E6: a word of zeros is no instruction. -/
theorem test_illegal : faultOf (run [] 0) = some (.illegalInstruction 0) := by decide

/-- T7: the step after the JR. -/
theorem test_fetch_misaligned : faultOf (step ((start []).setPc 0x00400016)) = some (.fetchMisaligned 0x00400016) := by
  decide

/-! ## Witnesses: for each statement with hypotheses, a state and operands that meet them together -/

/-- x1 to x3 hold 5, 7, 0 and SR holds every bit. -/
def plain : State := start [(1, 5), (2, 7), (3, 0), (27, 0xFFFFFFFF)]

/-- The same with data memory. -/
def withData : State := plain.setMem loadMem

theorem witness_EveryStepKeepsStateWellFormed :
    ∃ t, (withData.withFetchWord 32 0x00221801).wf ∧ step (withData.withFetchWord 32 0x00221801) = .next t :=
  ⟨_, by decide, rfl⟩

theorem witness_StepsKeepImemAndParameters :
    (∃ t, stepWith { encSpec with add := 0b010000 } (plain.withFetchWord 32 0x00221810) = .next t) ∧
    (∃ t, step (plain.withFetchWord 32 0x00221801) = .next t) ∧ hostAnswer (atSyscall [.changesImem]) = .changesImem :=
  ⟨⟨_, rfl⟩, ⟨_, rfl⟩, rfl⟩

theorem witness_OnlySyscallChangesDataMemory :
    (∃ t, exec (.lw 1 2 0) (withData.writeReg 1 0x10010008) = .next t) ∧
    (∃ t, exec .syscall (atSyscall [.returned someEffect]) = .next t) ∧
    (∀ w ∈ someEffect.memWrites, w.1.toNat ≠ 0x10010002) :=
  ⟨⟨_, rfl⟩, ⟨_, rfl⟩, by simp [someEffect]⟩

theorem witness_StepRunsTheDecodedInstruction :
    aligned (plain.withFetchWord 32 0x00221801).pc ∧
    (plain.withFetchWord 32 0x00221801).fetchWord = some 0x00221801 ∧
    decodeWord encSpec 0x00221801 = .ok (.add 1 2 3) := by decide

theorem witness_StepStopsBeforeAnInstruction_misaligned : ¬ aligned (plain.setPc 0x00400003).pc := by decide

theorem witness_StepStopsBeforeAnInstruction_end :
    aligned (plain.setPc 0xFFFFFFFC).pc ∧ (plain.setPc 0xFFFFFFFC).fetchWord = none := by decide

theorem witness_StepStopsBeforeAnInstruction_illegal :
    aligned (plain.withFetchWord 32 0).pc ∧ (plain.withFetchWord 32 0).fetchWord = some 0 ∧
    decodeWord encSpec 0 = .error (.unknownFunct 0) := by decide

theorem witness_RunEndsWellExactlyAtItsEnds :
    goodEnd (step plain) = true ∧ goodEnd (step (atSyscall [.endsRun someEffect])) = true ∧
    hostAnswer (atSyscall [.endsRun someEffect]) = .endsRun someEffect ∧ goodEnd (step (plain.withFetchWord 32 0)) = false := by decide

theorem witness_LoadedWordIsTheNextInstruction :
    0x2FFFFFFF < 2 ^ 32 ∧ decodeWord encSpec (BitVec.ofNat 32 0x2FFFFFFF) = .ok (.autoevade 0x3FFFFFF) ∧
    aligned plain.pc ∧ 0x003FFFFF < (plain.withFetchWord 32 0x2FFFFFFF).pc.toNat ∧
    (plain.withFetchWord 32 0x2FFFFFFF).pc.toNat + 4 ≤ 0x00400004 :=
  ⟨by omega, by decide, by decide, by decide, by decide⟩

theorem witness_DecodeUndoesEncode : encSpec.wf := by decide

theorem witness_EncodeUndoesDecode : decodeWord encSpec 0x2FFFFFFF = .ok (.autoevade 0x3FFFFFF) := by decide

theorem witness_DecoderAgreesWithTheOpcodeTable :
    Mnemonic.jr.selectedBy 0x03E00008 ∧ ¬ Mnemonic.jr.selectedBy 0x03E10008 ∧
    decodeWord encSpec 0x03E00008 = .ok (.jr 31) := by decide

theorem witness_DataWordReadsBackAsWritten :
    ∃ t, withData.memWrite 0x10010008 0x01020304 = .ok t ∧ (0x10010004 : Word) ≠ 0x10010008 ∧ withData.mem.wf :=
  ⟨_, rfl, by decide, by decide⟩

theorem witness_DataReadFaultsExactlyOnMemFault :
    ¬ aligned 0x10010001 ∧ withData.memFault 0x10010001 = true ∧ withData.memFault 0x1001000C = true ∧
    withData.memFault 0xFFFFFFFC = true ∧ withData.memFault 0x10010008 = false := by decide

theorem witness_ReservedStatusBitsAreKept :
    (∃ t, exec (.lockon 1 2 3) plain = .next t) ∧ Instr.dest? (.lockon 1 2 3) ≠ some 27 ∧
    Flag.callbase ≠ .carry ∧ Flag.callbase ≠ .overflow ∧
    ((2 = 2 ∨ 2 = 3 ∨ 9 ≤ 2) ∧ (3 = 2 ∨ 3 = 3 ∨ 9 ≤ 3) ∧ (9 = 2 ∨ 9 = 3 ∨ 9 ≤ 9) ∧ (31 = 2 ∨ 31 = 3 ∨ 9 ≤ 31)) :=
  ⟨⟨_, rfl⟩, by decide⟩

/-- DANGER and CALLBASE both set before and after. -/
theorem witness_DangerIsNeverSetNorCallbaseClearedByRole :
    ∃ t, exec (.callbase 1) plain = .next t ∧ Instr.dest? (.callbase 1) ≠ some 27 ∧ t.getFlag .danger = true ∧
      plain.getFlag .callbase = true :=
  ⟨_, rfl, by decide, by decide, by decide⟩

theorem witness_CheckedAddFaultsExactlyOnOverflow :
    fits ((0x7FFFFFFE : Word).toInt + (1 : Word).toInt) ∧ ¬ fits ((0x7FFFFFFF : Word).toInt + (1 : Word).toInt) ∧
    ¬ fits ((0x80000000 : Word).toInt + (0xFFFFFFFF : Word).toInt) := by decide

theorem witness_CheckedSubFaultsExactlyOnOverflow :
    fits ((0x80000001 : Word).toInt - (1 : Word).toInt) ∧ ¬ fits ((0x80000000 : Word).toInt - (1 : Word).toInt) ∧
    ¬ fits ((0 : Word).toInt - (0x80000000 : Word).toInt) := by decide

theorem witness_CheckedDivRoundsTowardZero :
    (0 : Word) = 0 ∧ (0xFFFFFFFF : Word) ≠ 0 ∧ ¬ ((0x80000001 : Word) = 0x80000000 ∧ (0xFFFFFFFF : Word) = 0xFFFFFFFF) := by
  decide

theorem witness_SltAndShl1AreExact :
    (0x80000000 : Word).toInt < (0x7FFFFFFF : Word).toInt ∧ (5 : Word).toInt ≤ (5 : Word).toInt := by decide

theorem witness_BranchTargetFollowsItsConvention : aligned 0xFFFFFFFC := by decide

theorem witness_OnlyJumpRegisterMisalignsThePc :
    aligned plain.pc ∧ (∃ t, exec (.bne 1 2 0xFFFF) plain = .next t) ∧ Instr.mnemonic (.bne 1 2 0xFFFF) ≠ .jr ∧
    (∃ t, exec (.jr 1) plain = .next t) :=
  ⟨by decide, ⟨_, rfl⟩, by decide, ⟨_, rfl⟩⟩

theorem witness_StepsKeepThePcAligned :
    (∃ t, step (plain.withFetchWord 32 0x00200008) = .next t ∧ ¬ aligned t.pc) ∧
    ∃ t, step (atSyscall [.returned someEffect]) = .next t ∧ t.pc = 0x00400100 :=
  ⟨⟨_, rfl, by decide⟩, _, rfl, by decide⟩

theorem witness_OnlyTransfersRedirect :
    (∃ t, exec (.scan 1 0) plain = .next t) ∧ Instr.mnemonic (.scan 1 0) ∉ transfers :=
  ⟨⟨_, rfl⟩, by decide⟩

theorem witness_RegistersChangeOnlyByFieldOrRole :
    (∃ t, exec (.add 1 2 3) plain = .next t ∧ t.readReg 3 ≠ plain.readReg 3) ∧
    (∃ t, exec (.call 0) plain = .next t ∧ t.readReg 7 ≠ plain.readReg 7) ∧
    (∃ t, exec (.energize 1) plain = .next t ∧ t.readReg 25 ≠ plain.readReg 25) ∧
    ∃ t, exec (.boost 1 3) plain = .next t ∧ t.readReg 27 ≠ plain.readReg 27 :=
  ⟨⟨_, rfl, by decide⟩, ⟨_, rfl, by decide⟩, ⟨_, rfl, by decide⟩, _, rfl, by decide⟩

theorem witness_FaultsComeOnlyFromTheirInstructions :
    exec (.add 1 1 3) (plain.writeReg 1 0x40000000) = .fault .arithmeticOverflow ∧
    exec (.sub 3 1 3) (plain.writeReg 1 0x80000000) = .fault .arithmeticOverflow ∧
    exec (.addi 1 3 1) (plain.writeReg 1 0x7FFFFFFF) = .fault .arithmeticOverflow ∧
    exec (.deploybits 1 3 2) plain = .fault .divideByZero ∧
    exec (.lw 1 2 0) plain = .fault (.addressFault 5) ∧
    exec .syscall (atSyscall [.fault 1 someEffect]) = .fault (.syscallFault 1 someEffect) :=
  ⟨rfl, rfl, rfl, rfl, rfl, rfl⟩

theorem witness_OnlySyscallIsRefused :
    exec .syscall (atSyscall [.endsRun someEffect]) = .refused (.runEndedByHost 0xA5A50002 someEffect) ∧
    exec .syscall (atSyscall [.changesImem]) = .refused (.imemChanged 0xA5A50002) :=
  ⟨rfl, rfl⟩

theorem witness_ReasonCodesTellTheKindsApart : defaultParams.faultCode.wf := by decide

theorem witness_OnlyLoadsSeeDataMemory :
    (∃ t, exec (.boost 1 3) plain = .next t) ∧ exec (.deploybits 1 3 2) plain = .fault .divideByZero ∧
    (∃ t, exec (.lw 1 2 0) (withData.writeReg 1 0x10010000) = .next t) ∧
    exec (.lw 1 2 0) withData = .fault (.addressFault 5) :=
  ⟨⟨_, rfl⟩, rfl, ⟨_, rfl⟩, rfl⟩

theorem witness_AddResultOrOverflow :
    fits ((plain.readReg 1).toInt + (plain.readReg 2).toInt) ∧
    ¬ fits (((start [(1, 0x7FFFFFFF), (2, 1)]).readReg 1).toInt + ((start [(1, 0x7FFFFFFF), (2, 1)]).readReg 2).toInt) := by
  decide

theorem witness_SubResultOrOverflow :
    fits ((plain.readReg 1).toInt - (plain.readReg 2).toInt) ∧
    ¬ fits (((start [(1, 0x80000000), (2, 1)]).readReg 1).toInt - ((start [(1, 0x80000000), (2, 1)]).readReg 2).toInt) := by
  decide

theorem witness_AddiResultOrOverflow :
    fits ((plain.readReg 1).toInt + (0x8000 : Imm16).toInt) ∧
    ¬ fits (((start [(1, 0x7FFFFFFF)]).readReg 1).toInt + (1 : Imm16).toInt) := by decide

theorem witness_BitwiseResults :
    (2 : Reg) ≠ 3 ∧ (start [(2, 0xFFFFFFFF)]).readReg 2 = 0xFFFFFFFF ∧ (start [(2, 0)]).readReg 2 = 0 := by decide

theorem witness_SltResult :
    (plain.readReg 1).toInt < (plain.readReg 2).toInt ∧ (plain.readReg 2).toInt ≤ (plain.readReg 2).toInt := by decide

theorem witness_BranchesRedirectOnTheirCondition :
    plain.readReg 1 = plain.readReg 1 ∧ plain.readReg 1 ≠ plain.readReg 2 := by decide

theorem witness_CompareEqualBranchResult :
    plain.readReg 2 = plain.readReg 2 ∧ plain.readReg 2 ≠ plain.readReg 3 := by decide

theorem witness_AutoevadeJumpsOnDanger :
    (plain.readReg 27).getLsbD 7 = true ∧ ((plain.writeReg 27 0x17F).readReg 27).getLsbD 7 = false := by decide

theorem witness_LoadWordResultOrAddressFault :
    ((0x10010008 : Word) = (withData.writeReg 1 0x10010004).readReg 1 + (4 : Imm16).signExtend 32 ∧
      aligned 0x10010008 ∧ withData.mem.readWord withData.params.byteOrder 0x10010008 = some 0x12345678) ∧
    ((5 : Word) = withData.readReg 1 + (0 : Imm16).signExtend 32 ∧ ¬ aligned 5) ∧
    ((0xFFFFFFFC : Word) = withData.readReg 3 + (0xFFFC : Imm16).signExtend 32 ∧
      withData.mem.readWord withData.params.byteOrder 0xFFFFFFFC = none) := by decide

theorem witness_LockonResult :
    (0 : Word) = (if plain.readReg 1 = plain.readReg 2 then 1 else 0) ∧
    (1 : Word) = (if plain.readReg 1 = plain.readReg 1 then 1 else 0) := by decide

theorem witness_TransamResult :
    0 < ((plain.writeReg 25 1).readReg 25).toInt ∧ ¬ 0 < ((plain.writeReg 25 0).readReg 25).toInt ∧
    ¬ 0 < ((plain.writeReg 25 0x80000000).readReg 25).toInt ∧ (3 : Reg) ≠ 25 ∧ (3 : Reg) ≠ 27 := by decide

theorem witness_DeploybitsResultOrDivideByZero :
    plain.readReg 3 = 0 ∧ plain.readReg 2 ≠ 0 ∧ ¬ (plain.readReg 1 = 0x80000000 ∧ plain.readReg 2 = 0xFFFFFFFF) ∧
    ((start [(1, 0x80000000), (2, 0xFFFFFFFF)]).readReg 1 = 0x80000000 ∧
      (start [(1, 0x80000000), (2, 0xFFFFFFFF)]).readReg 2 = 0xFFFFFFFF) := by decide

theorem witness_ScanResult :
    plain.readReg 27 = (if (0 : Imm16) = 0 then plain.readReg 27 else 0) ∧
    (0 : Word) = (if (3 : Imm16) = 0 then plain.readReg 27 else if (3 : Imm16) = 1 then plain.readReg 25 else
      if (3 : Imm16) = 2 then plain.readReg 26 else 0) ∧
    plain.readReg 26 = (if (2 : Imm16) = 0 then plain.readReg 27 else if (2 : Imm16) = 1 then plain.readReg 25 else
      if (2 : Imm16) = 2 then plain.readReg 26 else 0) := by decide

theorem witness_SyscallDoesWhatTheHostAnswers :
    (atSyscall [.endsRun someEffect]).answers = .endsRun someEffect :: [] ∧
    hostAnswer (atSyscall [.returned someEffect]) = .returned someEffect ∧
    hostAnswer (atSyscall [.fault 1 someEffect]) = .fault 1 someEffect ∧
    hostAnswer (atSyscall [.endsRun someEffect]) = .endsRun someEffect ∧
    hostAnswer (atSyscall [.changesImem]) = .changesImem := by
  decide

end Sys2Proof.Tests
end

section
/-! SR bit by bit: what each register update keeps of SR, which of its bits each instruction writes by role, and the two
statements about the register file and SR that follow (10_state.md R11, R14, R17). -/

namespace Sys2Proof.Machine

/-! ## What the updates of State keep of SR -/

section
variable {s : State} {owned : List Nat} {before : Word}

theorem BitsKept.refl (w : Word) : BitsKept owned w w := fun _ _ => rfl

theorem BitsKept.writeReg (h : BitsKept owned before (s.readReg srReg)) {r : Reg} (hr : r ≠ srReg) (v : Word) :
    BitsKept owned before ((s.writeReg r v).readReg srReg) := by
  rwa [readReg_writeReg_ne s r srReg v hr.symm]

theorem BitsKept.spendEnergy (h : BitsKept owned before (s.readReg srReg)) :
    BitsKept owned before (s.spendEnergy.readReg srReg) := h.writeReg (by decide) _

theorem BitsKept.setFlag (h : BitsKept owned before (s.readReg srReg)) {f : Flag} (hf : f.bit ∈ owned) (b : Bool) :
    BitsKept owned before ((s.setFlag f b).readReg srReg) := by
  intro k hk
  have hne : k ≠ f.bit := fun e => hk (e ▸ hf)
  rw [sr_setFlag, srWithFlag_bit, if_neg hne]
  exact h k hk

theorem BitsKept.updateZN (h : BitsKept (0 :: 1 :: owned) before (s.readReg srReg)) (v : Word) :
    BitsKept (0 :: 1 :: owned) before ((s.updateZN v).readReg srReg) := by
  intro k hk
  obtain ⟨h0, h1⟩ : k ≠ 0 ∧ k ≠ 1 := ⟨fun e => hk (by simp [e]), fun e => hk (by simp [e])⟩
  rw [sr_updateZN, srWithZN_bit, if_neg h0, if_neg h1]
  exact h k hk

end

/-- A conditional branch, taken or not, keeps every register (R82). -/
theorem branchIf_keeps_readReg {c : Bool} {imm : Imm16} {s t : State} (h : branchIf c imm s = .next t) (r : Reg) :
    t.readReg r = s.readReg r := by
  obtain ⟨-, he⟩ | ⟨-, he⟩ := branchIf_cases c imm s <;> cases he.symm.trans h <;> rfl

/-! ## The bits of SR an instruction writes by role -/

/-- The bits of SR an instruction other than SYSCALL writes by role (R16), whatever its destination field. -/
def srBitsByRole : Instr → List Nat
  | .lw _ _ _ | .thrust _ _ _ | .scan _ _ | .boost _ _ => [0, 1]
  | .lockon _ _ _ => [0, 1, 5]
  | .shieldup _ => [4]
  | .transam _ _ => [0, 1, 6]
  | .deploybits _ _ _ => [0, 1, 7]
  | .callbase _ => [8]
  | _ => []

/-- SR keeps every bit but those the instruction writes by role, unless the destination field names SR (R17, R18). -/
theorem exec_keeps_srBits {i : Instr} {s t : State} (hi : i ≠ .syscall) (hd : i.dest? ≠ some srReg)
    (h : exec i s = .next t) : BitsKept (srBitsByRole i) (s.readReg srReg) (t.readReg srReg) := by
  have same := BitsKept.refl (owned := srBitsByRole i) (s.readReg srReg)
  have destNe {d : Reg} (e : i.dest? = some d) : d ≠ srReg := fun hr => hd (hr ▸ e)
  cases i with
  | syscall => exact absurd rfl hi
  | add rs rt rd => obtain ⟨y, -, rfl⟩ := execAdd_next h; exact same.writeReg (destNe rfl) y
  | sub rs rt rd => obtain ⟨y, -, rfl⟩ := execSub_next h; exact same.writeReg (destNe rfl) y
  | addi rs rt imm => obtain ⟨y, -, rfl⟩ := execAddi_next h; exact same.writeReg (destNe rfl) y
  | mul rs rt rd => cases h; exact same.writeReg (destNe rfl) _
  | xor rs rt rd => cases h; exact same.writeReg (destNe rfl) _
  | or rs rt rd => cases h; exact same.writeReg (destNe rfl) _
  | and rs rt rd => cases h; exact same.writeReg (destNe rfl) _
  | slt rs rt rd => cases h; exact same.writeReg (destNe rfl) _
  | energize rs => cases h; exact same.writeReg (by decide) _
  | lw rs rt imm =>
    obtain ⟨v, -, rfl⟩ := execLw_next h
    exact (same.writeReg (destNe rfl) v).updateZN v
  | thrust rs rt imm => cases h; exact (same.writeReg (destNe rfl) _).updateZN _
  | scan rt imm => cases h; exact (same.writeReg (destNe rfl) _).updateZN _
  | boost rs rd => cases h; exact (same.writeReg (destNe rfl) _).updateZN _
  | lockon rs rt rd =>
    cases h
    exact ((same.writeReg (destNe rfl) _).setFlag (f := .lockon) (by simp [srBitsByRole, Flag.bit]) _).updateZN _
  | shieldup rs => cases h; exact same.setFlag (f := .shield) (by simp [srBitsByRole, Flag.bit]) _
  | transam rs rd =>
    obtain ⟨-, he⟩ | ⟨-, he⟩ := execTransam_next rs rd s <;> cases he.symm.trans h
    · exact ((same.writeReg (destNe rfl) _).spendEnergy.setFlag (by simp [srBitsByRole, Flag.bit]) _).updateZN _
    · exact ((same.writeReg (destNe rfl) _).setFlag (by simp [srBitsByRole, Flag.bit]) _).updateZN _
  | deploybits rs rt rd =>
    obtain ⟨q, -, ⟨-, rfl⟩ | ⟨-, rfl⟩⟩ := execDeploybits_next h
    · exact ((same.writeReg (destNe rfl) q).updateZN q).setFlag (by simp [Flag.bit]) _
    · exact (same.writeReg (destNe rfl) q).updateZN q
  | beq rs rt imm => rwa [branchIf_keeps_readReg h]
  | bne rs rt imm => rwa [branchIf_keeps_readReg h]
  | cbeq rs rt imm => rwa [branchIf_keeps_readReg h]
  | jr rs => cases h; exact same
  | j a => cases h; exact same
  | call a => cases h; exact same.writeReg (by decide) _
  | callbase a =>
    cases h
    exact (same.writeReg (r := linkReg) (by decide) _).setFlag (f := .callbase) (by simp [srBitsByRole, Flag.bit]) _
  | autoevade a =>
    obtain ⟨-, he⟩ | ⟨-, he⟩ := execAutoevade_next a s <;> cases he.symm.trans h <;> exact same

/-! ## Carry, Overflow and the reserved bits 31:9 (R17) -/

section
variable {k : Nat}

theorem flag_bit_ne_of_reserved (hk : k = 2 ∨ k = 3 ∨ 9 ≤ k) {f : Flag} (hc : f ≠ .carry) (ho : f ≠ .overflow) :
    k ≠ f.bit := by
  cases f with
  | carry => exact absurd rfl hc
  | overflow => exact absurd rfl ho
  | _ => simp only [Flag.bit]; omega

theorem reserved_not_mem_srBitsByRole (hk : k = 2 ∨ k = 3 ∨ 9 ≤ k) (i : Instr) : k ∉ srBitsByRole i := by
  unfold srBitsByRole
  split <;> simp only [List.mem_cons, List.not_mem_nil, or_false, not_false_eq_true] <;> omega

end

/-! ## The statements -/

/-- Settles O1, by the read-after-write rule of the register file and the frame of one register write. -/
theorem registerFileReadsBackWrites : Obligations.RegisterFileReadsBackWrites := fun s q r v =>
  ⟨readReg_writeReg s r q v, readReg_writeReg_self s 0 v, writeReg_pc s r v, sameOutside_write s r v⟩

/-- Settles O18: no reserved bit is among those a flag operation or an instruction writes by role. -/
theorem reservedStatusBitsAreKept : Obligations.ReservedStatusBitsAreKept := by
  intro k hk
  refine ⟨fun s f val hc ho => ?_, fun s v => ?_, fun i s t hi hd h => ?_⟩
  · have hne : k ∉ [f.bit] := by simpa using flag_bit_ne_of_reserved hk hc ho
    exact (BitsKept.refl (s.readReg srReg)).setFlag (List.mem_singleton_self _) val k hne
  · have hne : k ∉ [0, 1] := by simp only [List.mem_cons, List.not_mem_nil, or_false]; omega
    exact (BitsKept.refl (s.readReg srReg)).updateZN v k hne
  · exact exec_keeps_srBits hi hd h k (reserved_not_mem_srBitsByRole hk i)

end Sys2Proof.Machine
end

section
/-! Who changes data memory: the host's handler alone, and only at the addresses it writes (20_memory.md R33). -/

namespace Sys2Proof.Machine

/-- The handler's byte writes leave every address they do not name as it was. -/
theorem read_writeBytes_of_unwritten (m : Memory) (ws : List (Word × Option Byte)) {a : Nat}
    (h : ∀ w ∈ ws, w.1.toNat ≠ a) : (writeBytes m ws).read a = m.read a := by
  induction ws generalizing m with
  | nil => rfl
  | cons w ws ih =>
    obtain ⟨hw, hws⟩ := List.forall_mem_cons.1 h
    calc (writeBytes (m.write w.1.toNat w.2) ws).read a
      _ = (m.write w.1.toNat w.2).read a := ih _ hws
      _ = m.read a := by rw [Memory.read_write, if_neg hw.symm]

/-- SYSCALL changes data memory only by its handler's byte writes (R33, R130). -/
theorem execSyscall_next_mem {s t : State} (h : exec .syscall s = .next t) :
    ∃ e, hostAnswer s = .returned e ∧ t.mem = writeBytes s.mem e.memWrites := by
  obtain ⟨e, ha, rfl⟩ := execSyscall_next h
  exact ⟨e, ha, by simp⟩

/-- Everything a data write can do (R33). -/
theorem memWrite_cases (s : State) (addr v : Word) :
    (s.memFault addr = true ∧ s.memWrite addr v = .error (.addressFault addr)) ∨
    (s.memFault addr = false ∧
      s.memWrite addr v = .ok (s.setMem (s.mem.writeWord s.params.byteOrder addr v))) := by
  unfold State.memWrite
  cases s.memFault addr
  · exact .inr ⟨rfl, rfl⟩
  · exact .inl ⟨rfl, rfl⟩

/-- Settles O5: an instruction other than SYSCALL keeps data memory whole, SYSCALL writes its handler's bytes, and a
data read or write either completes or takes the addressing fault. -/
theorem onlySyscallChangesDataMemory : Obligations.OnlySyscallChangesDataMemory := by
  refine ⟨fun i s t hi h => ?_, fun s t h => ?_, fun s addr v => ⟨?_, ?_⟩⟩
  · obtain ⟨hmem, -, -, -, -, hparams⟩ := exec_next_regs_pc hi h
    exact ⟨fun a => by rw [hmem], memRead_congr hmem hparams⟩
  · obtain ⟨e, he, hmem⟩ := execSyscall_next_mem h
    exact ⟨e, he, fun a ha => by rw [hmem, read_writeBytes_of_unwritten s.mem e.memWrites ha]⟩
  · obtain ⟨w, hw, -⟩ | ⟨hf, -⟩ := memRead_cases s addr
    · exact .inr ⟨w, hw⟩
    · exact .inl hf
  · obtain ⟨-, hf⟩ | ⟨-, hok⟩ := memWrite_cases s addr v
    · exact .inl hf
    · exact .inr ⟨_, hok⟩

end Sys2Proof.Machine
end

section
/-! The functional units on words: the flag operations one bit at a time, and the exact results of the arithmetic unit
and of the jump target (40_functional_units.md R64, R65, R70 to R80). -/

namespace Sys2Proof.Machine

/-! ## Flags -/

/-- A flag reads back as SetFlag set it (R64, R65). -/
theorem getFlag_setFlag_self (s : State) (f : Flag) (val : Bool) : (s.setFlag f val).getFlag f = val := by
  rw [State.getFlag, sr_setFlag, srWithFlag_bit, if_pos rfl]

theorem sameOutside_setFlag (s : State) (f : Flag) (val : Bool) : SameOutside [srReg] s (s.setFlag f val) :=
  sameOutside_write s srReg _

/-! ## Checked addition and subtraction -/

theorem addOverflow_iff_msb (a b : Word) : addOverflow a b = true ↔ a.msb = b.msb ∧ (a + b).msb ≠ a.msb := by
  simp [addOverflow]

theorem subOverflow_iff_msb (a b : Word) : subOverflow a b = true ↔ a.msb ≠ b.msb ∧ (a - b).msb = b.msb := by
  simp [subOverflow]

/-- The two outcomes of a checked operation with exact result n exclude each other, so n decides between them. -/
theorem checked_decided_by_fits {r : Except Fault Word} {v : Word} {n : Int}
    (h : (r = .error .arithmeticOverflow ∧ ¬ fits n) ∨ (r = .ok v ∧ v.toInt = n ∧ fits n)) :
    (fits n → r = .ok v ∧ v.toInt = n) ∧ (¬ fits n → r = .error .arithmeticOverflow) := by
  obtain ⟨hfault, hn⟩ | ⟨hok, hexact, hn⟩ := h
  · exact ⟨fun hf => absurd hf hn, fun _ => hfault⟩
  · exact ⟨fun _ => ⟨hok, hexact⟩, fun hf => absurd hn hf⟩

/-! ## Comparison and shift -/

theorem slt_of_lt {a b : Word} (h : a.toInt < b.toInt) : slt a b = 1 := if_pos h

theorem slt_of_le {a b : Word} (h : b.toInt ≤ a.toInt) : slt a b = 0 := if_neg (Int.not_lt.2 h)

/-- R78: bit 31 is dropped and a zero enters at bit 0. -/
theorem shl1_fields (a : Word) : shl1 a = a.extractLsb' 0 31 ++ (0 : BitVec 1) :=
  BitVec.shiftLeft_eq_concat_of_lt (by decide)

/-- R78: twice the value modulo 2^32; the two readings of a word differ by a multiple of 2^32. -/
theorem shl1_toNat (a : Word) : ((shl1 a).toNat : Int) = 2 * a.toInt % 2 ^ 32 := by
  rw [shl1, BitVec.toNat_shiftLeft, Nat.shiftLeft_eq, BitVec.toInt_eq_toNat_cond]
  split <;> omega

/-! ## The statements -/

/-- Settles O16, by the read-after-write rule of SR and the bitwise law of SetFlag. -/
theorem setFlagChangesOneBit : Obligations.SetFlagChangesOneBit := by
  refine ⟨⟨rfl, rfl, rfl, rfl, rfl, rfl, rfl, rfl, rfl⟩, fun s f val => ⟨rfl, ?_, ?_, ?_, ?_⟩⟩
  · exact getFlag_setFlag_self s f val
  · exact (BitsKept.refl (s.readReg srReg)).setFlag (List.mem_singleton_self _) val
  · exact setFlag_pc s f val
  · exact sameOutside_setFlag s f val

/-- Settles O20: the sign test and both outcomes are decided by whether the exact sum fits. -/
theorem checkedAddFaultsExactlyOnOverflow : Obligations.CheckedAddFaultsExactlyOnOverflow := fun a b =>
  ⟨(addOverflow_iff_msb a b).symm.trans (addOverflow_iff a b), checked_decided_by_fits (checkedAdd_cases a b)⟩

/-- Settles O21: the sign test and both outcomes are decided by whether the exact difference fits. -/
theorem checkedSubFaultsExactlyOnOverflow : Obligations.CheckedSubFaultsExactlyOnOverflow := fun a b =>
  ⟨(subOverflow_iff_msb a b).symm.trans (subOverflow_iff a b), checked_decided_by_fits (checkedSub_cases a b)⟩

/-- Settles O22: the signed reading is the definition of TruncMul, the unsigned one is the product of words. -/
theorem truncMulKeepsTheLowWord : Obligations.TruncMulKeepsTheLowWord := by
  intro a b
  constructor
  · exact ofInt_toNat (a.toInt * b.toInt)
  · rw [truncMul_eq_mul, BitVec.toNat_mul]

/-- Settles O24, by the two outcomes of Slt and the two readings of Shl1. -/
theorem sltAndShl1AreExact : Obligations.SltAndShl1AreExact := fun a _ =>
  ⟨slt_of_lt, slt_of_le, shl1_fields a, shl1_toNat a⟩

/-- Settles O25, by the fields of a jump target. -/
theorem jumpTargetKeepsTheRegion : Obligations.JumpTargetKeepsTheRegion := fun pc t =>
  ⟨jumpTarget_fields pc t, jumpTarget_aligned pc t⟩

end Sys2Proof.Machine
end

section
/-! What the bitwise instructions and the control transfers without a link leave: the value or the target, and the frame
(40_functional_units.md R75, R82, R83, R85). -/

namespace Sys2Proof.Machine

/-! ## Bitwise instructions -/

/-- An instruction that ends with the write of v to rd completes with v in rd, the pc advanced and the rest kept. -/
theorem exec_of_advance_writeReg {i : Instr} {s : State} {rd : Reg} {v : Word}
    (h : exec i s = advance (s.writeReg rd v)) :
    ∃ t, exec i s = .next t ∧ t.readReg rd = v ∧ t.pc = s.pc + 4 ∧ SameOutside [rd] s t :=
  ⟨_, h, readReg_writeReg_self s rd v, rfl, (sameOutside_write s rd v).setPc _⟩

section
variable (s : State) (rs rt rd : Reg)

theorem execXor_result : ∃ t, exec (.xor rs rt rd) s = .next t ∧ t.readReg rd = s.readReg rs ^^^ s.readReg rt ∧
    t.pc = s.pc + 4 ∧ SameOutside [rd] s t := exec_of_advance_writeReg rfl

theorem execOr_result : ∃ t, exec (.or rs rt rd) s = .next t ∧ t.readReg rd = s.readReg rs ||| s.readReg rt ∧
    t.pc = s.pc + 4 ∧ SameOutside [rd] s t := exec_of_advance_writeReg rfl

theorem execAnd_result : ∃ t, exec (.and rs rt rd) s = .next t ∧ t.readReg rd = s.readReg rs &&& s.readReg rt ∧
    t.pc = s.pc + 4 ∧ SameOutside [rd] s t := exec_of_advance_writeReg rfl

end

/-- `Xor(Xor(a, b), b) = a` (R75), by two runs of XOR; the first leaves rt because rt is not rd. -/
theorem execXor_twice (s : State) {rt rd : Reg} (hne : rt ≠ rd) :
    ∃ t u, exec (.xor rd rt rd) s = .next t ∧ exec (.xor rd rt rd) t = .next u ∧ u.readReg rd = s.readReg rd := by
  obtain ⟨t, ht, hval, -, hkept, -⟩ := execXor_result s rd rt rd
  obtain ⟨u, hu, hval', -⟩ := execXor_result t rd rt rd
  have hrt : t.readReg rt = s.readReg rt := hkept rt (by simpa using hne)
  refine ⟨t, u, ht, hu, ?_⟩
  calc u.readReg rd
    _ = s.readReg rd ^^^ s.readReg rt ^^^ s.readReg rt := by rw [hval', hval, hrt]
    _ = s.readReg rd := by rw [BitVec.xor_assoc, BitVec.xor_self, BitVec.xor_zero]

/-! ## Branches -/

/-- A conditional branch completes, redirects exactly when its condition holds and changes nothing but the pc (R82). -/
theorem branchIf_result {c : Bool} {p : Prop} (hc : c = true ↔ p) (imm : Imm16) (s : State) :
    ∃ t, branchIf c imm s = .next t ∧ SameOutside [] s t ∧
      (p → t.pc = branchTarget s.params.branchConv s.pc imm) ∧ (¬ p → t.pc = s.pc + 4) := by
  obtain ⟨htaken, he⟩ | ⟨hnot, he⟩ := branchIf_cases c imm s
  · exact ⟨_, he, (SameOutside.refl s).setPc _, fun _ => rfl, fun hp => absurd (hc.1 htaken) hp⟩
  · have hnp : ¬ p := fun hp => Bool.eq_false_iff.1 hnot (hc.2 hp)
    exact ⟨_, he, (SameOutside.refl s).setPc _, fun hp => absurd hp hnp, fun _ => rfl⟩

/-! ## AUTOEVADE -/

/-- DANGER is bit 7 of register 27 (R16, R64). -/
theorem getFlag_danger (s : State) : s.getFlag .danger = (s.readReg 27).getLsbD 7 := rfl

/-! ## The statements -/

/-- Settles O39: each result bit by bit from the word it is, then the algebra of words in the destination. -/
theorem bitwiseResults : Obligations.BitwiseResults := by
  refine ⟨fun s rs rt rd => ⟨?_, ?_, ?_⟩, fun s rt rd hne => execXor_twice s hne, fun s rt rd hrt => ?_,
    fun s rt rd hrt => ?_⟩
  · obtain ⟨t, ht, hval, hframe⟩ := execXor_result s rs rt rd
    exact ⟨t, ht, fun k => by rw [hval, BitVec.getLsbD_xor], hframe⟩
  · obtain ⟨t, ht, hval, hframe⟩ := execOr_result s rs rt rd
    exact ⟨t, ht, fun k => by rw [hval, BitVec.getLsbD_or], hframe⟩
  · obtain ⟨t, ht, hval, hframe⟩ := execAnd_result s rs rt rd
    exact ⟨t, ht, fun k => by rw [hval, BitVec.getLsbD_and], hframe⟩
  · obtain ⟨t, ht, hval, -⟩ := execAnd_result s rd rt rd
    exact ⟨t, ht, by rw [hval, hrt]; exact BitVec.and_allOnes⟩
  · obtain ⟨t, ht, hval, -⟩ := execOr_result s rd rt rd
    exact ⟨t, ht, by rw [hval, hrt]; exact BitVec.or_zero⟩

/-- Settles O41: BEQ and BNE are the conditional branch on equality and on its negation. -/
theorem branchesRedirectOnTheirCondition : Obligations.BranchesRedirectOnTheirCondition := by
  intro s rs rt imm
  constructor
  · exact branchIf_result beq_iff_eq imm s
  · obtain ⟨t, ht, hframe, htaken, hnot⟩ := branchIf_result (bne_iff_ne (a := s.readReg rs) (b := s.readReg rt)) imm s
    exact ⟨t, ht, hframe, htaken, fun heq => hnot (not_not_intro heq)⟩

/-- Settles O47, by the two paths of AUTOEVADE and the fields of its target. -/
theorem autoevadeJumpsOnDanger : Obligations.AutoevadeJumpsOnDanger := by
  intro s a
  obtain ⟨hd, he⟩ | ⟨hd, he⟩ := execAutoevade_next a s <;> rw [getFlag_danger] at hd
  · have hset : (s.readReg 27).getLsbD 7 ≠ false := Bool.ne_false_iff.2 hd
    exact ⟨_, he, (SameOutside.refl s).setPc _, fun _ => jumpTarget_fields s.pc a, fun hclear => absurd hclear hset⟩
  · have hclear : (s.readReg 27).getLsbD 7 ≠ true := Bool.eq_false_iff.1 hd
    exact ⟨_, he, (SameOutside.refl s).setPc _, fun hset => absurd hset hclear, fun _ => rfl⟩

/-- Settles O43: JR ends with a redirect to its register's contents, and the pc is in no frame. -/
theorem jumpRegisterIsVerbatim : Obligations.JumpRegisterIsVerbatim := fun s rs =>
  ⟨s.setPc (s.readReg rs), redirect_eq s _, setPc_pc s _, (SameOutside.refl s).setPc _⟩

end Sys2Proof.Machine
end

section
/-! What can end an instruction without a next state: the faults of the checked operations and the four answers of the
host to a SYSCALL (60_exceptions.md R140 to R144; 45_system.md R130). -/

namespace Sys2Proof.Machine

variable {i : Instr} {s t : State}

/-! ## SYSCALL, answer by answer -/

section
variable {e left : HostEffect} {info : Int}

theorem execSyscall_returned (h : hostAnswer s = .returned e) :
    exec .syscall s = .next ((applyHostEffect (consumeAnswer s) e).setPc (e.redirect.getD (s.pc + 4))) := by
  obtain ⟨e', ha, he⟩ | ⟨info, left, ha, -⟩ | ⟨left, ha, -⟩ | ⟨ha, -⟩ := execSyscall_cases s <;> cases ha.symm.trans h
  exact he

theorem execSyscall_fault (h : hostAnswer s = .fault info left) :
    exec .syscall s = .fault (.syscallFault info left) := by
  simp only [exec, execSyscall, h, raise]

theorem execSyscall_endsRun (h : hostAnswer s = .endsRun left) :
    exec .syscall s = .refused (.runEndedByHost (callNumber s) left) := by
  simp only [exec, execSyscall, h]

theorem execSyscall_changesImem (h : hostAnswer s = .changesImem) :
    exec .syscall s = .refused (.imemChanged (callNumber s)) := by
  simp only [exec, execSyscall, h]

end

/-! ## Which instructions can stop -/

/-- The instructions with a checked operation (R70, R71, R73, R31), and SYSCALL. -/
def canStop : List Mnemonic := [.add, .sub, .addi, .lw, .deploybits, .syscall]

/-- Every other instruction completes in every state. -/
theorem exec_completes (hi : i.mnemonic ∉ canStop) (s : State) : ∃ t, exec i s = .next t := by
  cases i with
  | transam rs rd => obtain ⟨-, he⟩ | ⟨-, he⟩ := execTransam_next rs rd s <;> exact ⟨_, he⟩
  | autoevade a => obtain ⟨-, he⟩ | ⟨-, he⟩ := execAutoevade_next a s <;> exact ⟨_, he⟩
  | beq rs rt imm =>
    obtain ⟨-, he⟩ | ⟨-, he⟩ := branchIf_cases (s.readReg rs == s.readReg rt) imm s <;> exact ⟨_, he⟩
  | bne rs rt imm =>
    obtain ⟨-, he⟩ | ⟨-, he⟩ := branchIf_cases (s.readReg rs != s.readReg rt) imm s <;> exact ⟨_, he⟩
  | cbeq rs rt imm =>
    obtain ⟨-, he⟩ | ⟨-, he⟩ := branchIf_cases (s.readReg rs == s.readReg rt) imm s <;> exact ⟨_, he⟩
  | add | sub | addi | lw | deploybits | syscall => simp [canStop, Instr.mnemonic] at hi
  | _ => exact ⟨_, rfl⟩

theorem ne_fault_of_completes (h : ∃ t, exec i s = .next t) (f : Fault) : exec i s ≠ .fault f := by
  obtain ⟨t, ht⟩ := h
  rw [ht]
  nofun

theorem ne_refused_of_completes (h : ∃ t, exec i s = .next t) (ρ : Refusal) : exec i s ≠ .refused ρ := by
  obtain ⟨t, ht⟩ := h
  rw [ht]
  nofun

/-- What DEPLOYBITS leaves for a quotient, the pc apart (R123). -/
def deployed (rd : Reg) (s : State) (q : Word) : State :=
  let t := (s.writeReg rd q).updateZN q
  if q ≠ 0 then t.setFlag .danger false else t

section
variable {r : Except Fault Word} {k : Word → State} (hx : exec i s = withChecked r fun v => advance (k v))
include hx

/-- An instruction built on one checked value faults only with that value's fault (R62 step 2). -/
theorem error_of_checked_fault {f : Fault} (h : exec i s = .fault f) : r = .error f := by
  obtain ⟨v, -, he⟩ | ⟨g, hr, he⟩ := withChecked_cases r fun v => advance (k v)
  · cases (hx.trans he).symm.trans h
  · cases (hx.trans he).symm.trans h
    exact hr

theorem checked_not_refused (ρ : Refusal) : exec i s ≠ .refused ρ := by
  intro h
  obtain ⟨v, -, he⟩ | ⟨g, -, he⟩ := withChecked_cases r fun v => advance (k v) <;> cases (hx.trans he).symm.trans h

end

theorem exec_not_refused (hi : i ≠ .syscall) (s : State) (ρ : Refusal) : exec i s ≠ .refused ρ := by
  cases i with
  | syscall => exact absurd rfl hi
  | add rs rt rd => exact checked_not_refused (k := s.writeReg rd) rfl ρ
  | sub rs rt rd => exact checked_not_refused (k := s.writeReg rd) rfl ρ
  | addi rs rt imm => exact checked_not_refused (k := s.writeReg rt) rfl ρ
  | lw rs rt imm => exact checked_not_refused (k := fun v => (s.writeReg rt v).updateZN v) rfl ρ
  | deploybits rs rt rd => exact checked_not_refused (k := deployed rd s) rfl ρ
  | _ => exact ne_refused_of_completes (exec_completes (by simp [canStop, Instr.mnemonic]) s) ρ

/-! ## Why a checked operation faults -/

theorem checkedAdd_error {a b : Word} {f : Fault} (h : checkedAdd a b = .error f) :
    f = .arithmeticOverflow ∧ ¬ fits (a.toInt + b.toInt) := by
  obtain ⟨he, hn⟩ | ⟨he, -⟩ := checkedAdd_cases a b <;> cases he.symm.trans h
  exact ⟨rfl, hn⟩

theorem checkedSub_error {a b : Word} {f : Fault} (h : checkedSub a b = .error f) :
    f = .arithmeticOverflow ∧ ¬ fits (a.toInt - b.toInt) := by
  obtain ⟨he, hn⟩ | ⟨he, -⟩ := checkedSub_cases a b <;> cases he.symm.trans h
  exact ⟨rfl, hn⟩

theorem checkedDiv_error {p a b : Word} {f : Fault} (h : checkedDiv p a b = .error f) :
    f = .divideByZero ∧ b = 0 := by
  obtain ⟨he, hb⟩ | ⟨he, -⟩ | ⟨q, he, -⟩ := checkedDiv_cases p a b <;> cases he.symm.trans h
  exact ⟨rfl, hb⟩

theorem memRead_error {a : Word} {f : Fault} (h : s.memRead a = .error f) :
    f = .addressFault a ∧ s.memFault a = true := by
  obtain ⟨v, he, -⟩ | ⟨he, hf⟩ := memRead_cases s a <;> cases he.symm.trans h
  exact ⟨rfl, hf⟩

/-- The immediate operand is the field's signed value (R74). -/
theorem sext32_toInt (imm : Imm16) : (sext32 imm).toInt = imm.toInt :=
  BitVec.toInt_signExtend_of_le (by decide)

/-! ## The statements -/

/-- Settles O31: each checked operation names its fault and its condition, SYSCALL hands on the handler's fault, and the
other instructions complete. -/
theorem faultsComeOnlyFromTheirInstructions : Obligations.FaultsComeOnlyFromTheirInstructions := by
  intro i s f h
  cases i with
  | add rs rt rd =>
    obtain ⟨rfl, hn⟩ := checkedAdd_error (error_of_checked_fault (k := s.writeReg rd) rfl h)
    exact .inl ⟨rfl, .inl ⟨rs, rt, rd, rfl, hn⟩⟩
  | sub rs rt rd =>
    obtain ⟨rfl, hn⟩ := checkedSub_error (error_of_checked_fault (k := s.writeReg rd) rfl h)
    exact .inl ⟨rfl, .inr (.inl ⟨rs, rt, rd, rfl, hn⟩)⟩
  | addi rs rt imm =>
    obtain ⟨rfl, hn⟩ := checkedAdd_error (error_of_checked_fault (k := s.writeReg rt) rfl h)
    rw [sext32_toInt] at hn
    exact .inl ⟨rfl, .inr (.inr ⟨rs, rt, imm, rfl, hn⟩)⟩
  | deploybits rs rt rd =>
    obtain ⟨rfl, hz⟩ := checkedDiv_error (error_of_checked_fault (k := deployed rd s) rfl h)
    exact .inr (.inl ⟨rfl, rs, rt, rd, rfl, hz⟩)
  | lw rs rt imm =>
    obtain ⟨rfl, hf⟩ := memRead_error
      (error_of_checked_fault (k := fun v => (s.writeReg rt v).updateZN v) rfl h)
    exact .inr (.inr (.inl ⟨rs, rt, imm, rfl, rfl, hf⟩))
  | syscall =>
    obtain ⟨e, -, he⟩ | ⟨info, left, ha, he⟩ | ⟨left, -, he⟩ | ⟨-, he⟩ := execSyscall_cases s <;> cases he.symm.trans h
    exact .inr (.inr (.inr ⟨info, left, rfl, rfl, ha⟩))
  | _ => exact absurd h (ne_fault_of_completes (exec_completes (by simp [canStop, Instr.mnemonic]) s) f)

/-- Settles O32: no other instruction is refused, and SYSCALL is by two of the host's four answers. -/
theorem onlySyscallIsRefused : Obligations.OnlySyscallIsRefused := by
  intro i s r h
  obtain rfl : i = .syscall := by_contra fun hi => exec_not_refused hi s r h
  refine ⟨rfl, ?_⟩
  obtain ⟨e, -, he⟩ | ⟨info, left, -, he⟩ | ⟨left, ha, he⟩ | ⟨ha, he⟩ := execSyscall_cases s <;> cases he.symm.trans h
  · exact .inl ⟨left, rfl, ha⟩
  · exact .inr ⟨rfl, ha⟩

/-- Settles O33: the code of a kind is its entry of FAULT_CODE, and R144 has the entries differ. -/
theorem reasonCodesTellTheKindsApart : Obligations.ReasonCodesTellTheKindsApart := by
  intro c addr info left hc
  simpa [FaultCodes.wf, reasonCode, and_assoc] using hc

end Sys2Proof.Machine
end

section
/-! The invariants of a run: what every instruction keeps of the memories and the parameters, what a word loaded at
the pc does, and where a step runs no instruction (20_memory.md R36 to R39; 70_reset_and_hazards.md R163, R164). -/

namespace Sys2Proof.Machine

variable {e : Enc} {i : Instr} {s t : State}

/-! ## What every instruction keeps, SYSCALL too -/

/-- IMEM and the parameters outlast every instruction, the host's handler included (R39; log 5, log 11). -/
theorem exec_keeps_imem_params (h : exec i s = .next t) : t.imem = s.imem ∧ t.params = s.params := by
  by_cases hi : i = .syscall
  · subst hi
    obtain ⟨eff, -, rfl⟩ := execSyscall_next h
    simp
  · obtain ⟨-, himem, -, -, -, hparams⟩ := exec_next_regs_pc hi h
    exact ⟨himem, hparams⟩

/-- Data memory stays canonical: only the handler writes bytes, and each write keeps the form. -/
theorem exec_keeps_mem_wf (h : exec i s = .next t) (hm : s.mem.wf) : t.mem.wf := by
  by_cases hi : i = .syscall
  · subst hi
    obtain ⟨eff, -, hmem⟩ := execSyscall_next_mem h
    exact hmem ▸ writeBytes_wf hm eff.memWrites
  · obtain ⟨hmem, -⟩ := exec_next_regs_pc hi h
    exact hmem ▸ hm

theorem exec_keeps_wf (h : exec i s = .next t) (hs : s.wf) : t.wf := by
  obtain ⟨hmem, himem, hparams⟩ := hs
  obtain ⟨ei, ep⟩ := exec_keeps_imem_params h
  exact ⟨exec_keeps_mem_wf h hmem, ei ▸ himem, ep ▸ hparams⟩

/-! ## The step, where it runs an instruction and where it stops before one -/

section
variable {w : Word}

theorem stepWith_decoded (ha : aligned s.pc) (hw : s.fetchWord = some w) (hd : decodeWord e w = .ok i) :
    stepWith e s = exec i s := by
  simp only [stepWith, fetch, if_pos ha, hw, hd]

theorem stepWith_misaligned (ha : ¬ aligned s.pc) : stepWith e s = .fault (.fetchMisaligned s.pc) := by
  simp only [stepWith, fetch, if_neg ha, raise]

theorem stepWith_endOfProgram (ha : aligned s.pc) (hw : s.fetchWord = none) :
    stepWith e s = .refused (.endOfProgram s.pc) := by
  simp only [stepWith, fetch, if_pos ha, hw]

theorem stepWith_illegal {r : DecodeReject} (ha : aligned s.pc) (hw : s.fetchWord = some w)
    (hd : decodeWord e w = .error r) : stepWith e s = .fault (.illegalInstruction w) := by
  simp only [stepWith, fetch, if_pos ha, hw, hd, raise]

end

/-- A run ends well at an instruction only where that is a SYSCALL at which the host ends it (R164 b). -/
theorem goodEnd_exec : goodEnd (exec i s) = true ↔ i = .syscall ∧ ∃ left, hostAnswer s = .endsRun left := by
  constructor
  · intro h
    cases hx : exec i s with
    | next t => rw [hx] at h; cases h
    | fault f => rw [hx] at h; cases h
    | refused r =>
      obtain ⟨hi, ⟨left, -, ha⟩ | ⟨rfl, -⟩⟩ := onlySyscallIsRefused i s r hx
      · exact ⟨hi, left, ha⟩
      · rw [hx] at h; cases h
  · rintro ⟨rfl, left, ha⟩
    rw [execSyscall_endsRun ha]
    rfl

/-! ## A word loaded at the pc -/

/-- Clearing the two low bits of an aligned pc leaves it (log 29). -/
theorem mask_of_aligned {a : Word} (ha : aligned a) : a &&& 0xFFFFFFFC = a := by
  apply BitVec.eq_of_getLsbD_eq
  intro k hk
  rw [BitVec.getLsbD_and]
  by_cases h2 : 2 ≤ k
  · rw [mask_clears_zn_bit h2 hk, Bool.and_true]
  · have hbit : a.getLsbD k = false := by
      have := congrArg (fun v : BitVec 2 => v.getLsbD k) ha
      simpa [show k < 2 by omega] using this
    rw [hbit, Bool.false_and]

/-- The load changes no byte of IMEM outside the word at the pc (log 29). -/
theorem imem_read_loadAtPc (s : State) (w : Word) {a : Nat}
    (ha : a < (s.loadAtPc w).pc.toNat ∨ (s.loadAtPc w).pc.toNat + 4 ≤ a) :
    (s.loadAtPc w).imem.read a = s.imem.read a := by
  rw [loadAtPc_pc] at ha
  rw [loadAtPc_imem, Memory.read_writeWord, if_neg (by omega), if_neg (by omega), if_neg (by omega),
    if_neg (by omega)]

theorem withFetchWord_eq (s : State) {w : Nat} (hw : w < 2 ^ 32) :
    s.withFetchWord 32 w = s.loadAtPc (BitVec.ofNat 32 w) := by
  rw [State.withFetchWord, Nat.mod_eq_of_lt hw]

/-! ## The statements -/

/-- Settles O3: the instruction a step decoded keeps the well-formed state. -/
theorem everyStepKeepsStateWellFormed : Obligations.EveryStepKeepsStateWellFormed := by
  intro e s t hs h
  obtain ⟨w, i, -, -, -, hexec⟩ := stepWith_next (stepWith_of_step h)
  exact exec_keeps_wf hexec hs

/-- Settles O4: the instruction a step decoded keeps IMEM and the parameters, and a change of IMEM is SYSCALL's last
case. -/
theorem stepsKeepImemAndParameters : Obligations.StepsKeepImemAndParameters := by
  refine ⟨fun e s t h => ?_, fun s ha => execSyscall_changesImem ha⟩
  obtain ⟨w, i, -, -, -, hexec⟩ := stepWith_next (stepWith_of_step h)
  exact exec_keeps_imem_params hexec

/-- Settles O6, by the decoded case of the step. -/
theorem stepRunsTheDecodedInstruction : Obligations.StepRunsTheDecodedInstruction :=
  ⟨fun _ _ _ _ => stepWith_decoded, step_eq, fun s _ _ ha hw hd => (step_eq s).trans (stepWith_decoded ha hw hd)⟩

/-- Settles O7, by the three stops of the fetch. -/
theorem stepStopsBeforeAnInstruction : Obligations.StepStopsBeforeAnInstruction := fun _ _ =>
  ⟨stepWith_misaligned, stepWith_endOfProgram, fun _ _ => stepWith_illegal⟩

/-- Settles O8: of the fetch's four outcomes only the end of the program and the decoded instruction can end a run well,
and an instruction does so only as `goodEnd_exec` says. -/
theorem runEndsWellExactlyAtItsEnds : Obligations.RunEndsWellExactlyAtItsEnds := by
  intro e s
  constructor
  · intro h
    obtain ⟨w, i, ha, hw, hd, -⟩ | ⟨ha, -⟩ | ⟨ha, hw, -⟩ | ⟨w, r, ha, hw, hd, -⟩ := fetch_cases e s
    · rw [stepWith_decoded ha hw hd] at h
      obtain ⟨rfl, left, hans⟩ := goodEnd_exec.1 h
      exact .inr ⟨ha, w, left, hw, hd, hans⟩
    · rw [stepWith_misaligned ha] at h
      cases h
    · exact .inl ⟨ha, hw⟩
    · rw [stepWith_illegal ha hw hd] at h
      cases h
  · rintro (⟨ha, hw⟩ | ⟨ha, w, left, hw, hd, hans⟩)
    · rw [stepWith_endOfProgram ha hw]
      rfl
    · rw [stepWith_decoded ha hw hd]
      exact goodEnd_exec.2 ⟨rfl, left, hans⟩

/-- Settles O9: the load leaves an aligned pc at which the fetch reads the word, and touches only the pc and IMEM. -/
theorem loadedWordIsTheNextInstruction : Obligations.LoadedWordIsTheNextInstruction := by
  rintro e s u w i rfl hw hd
  rw [withFetchWord_eq s hw]
  refine ⟨?_, rfl, fun ha => ?_, fun _ => rfl, fun _ => rfl, fun a => imem_read_loadAtPc s _, rfl, rfl, rfl, rfl⟩
  · exact stepWith_decoded (and_mask_aligned s.pc) (fetchWord_loadAtPc s _) hd
  · rw [loadAtPc_pc, mask_of_aligned ha]

/-- Settles O2, by evaluation of the closed reset state. -/
theorem resetStateIsWellFormed : Obligations.ResetStateIsWellFormed :=
  ⟨by decide, by decide, by decide, rfl, rfl⟩

end Sys2Proof.Machine
end

section
/-! The decoder and the encoder undo each other under every ENC, and the decoder selects the rows of the opcode table
(30_encoding.md R41 to R52). -/

namespace Sys2Proof

/-! ## The encoding of an instruction lies in its own row -/

section
variable (c : BitVec 6) (rs rt rd : Reg) (imm : Imm16)

theorem rWord_unused_shamt : rWord c rs rt rd &&& 0x000007C0 = 0 := by
  apply and_eq_of_bits
  intro k
  rw [rWord_bit]
  fin_cases k <;> simp

theorem rWord_unused_rt : rWord c rs 0 rd &&& 0x001F07C0 = 0 := by
  apply and_eq_of_bits
  intro k
  rw [rWord_bit]
  fin_cases k <;> simp [regBits]

theorem rWord_unused_rt_rd : rWord c rs 0 0 &&& 0x001FFFC0 = 0 := by
  apply and_eq_of_bits
  intro k
  rw [rWord_bit]
  fin_cases k <;> simp [regBits]

theorem rWord_unused_all : rWord c 0 0 0 &&& 0x03FFFFC0 = 0 := by
  apply and_eq_of_bits
  intro k
  rw [rWord_bit]
  fin_cases k <;> simp [regBits]

theorem iWord_unused_rs : iWord c 0 rt imm &&& 0x03E00000 = 0 := by
  apply and_eq_of_bits
  intro k
  rw [iWord_bit]
  fin_cases k <;> simp [regBits]

end

/-- The fields an instruction does not use are zero in its word (R45). -/
theorem encodeWord_unused (e : Enc) (i : Instr) : encodeWord e i &&& i.mnemonic.unusedMask = 0 := by
  cases i with
  | add | sub | mul | xor | or | and | slt | lockon | deploybits => exact rWord_unused_shamt ..
  | transam | boost => exact rWord_unused_rt ..
  | jr | shieldup | energize => exact rWord_unused_rt_rd ..
  | syscall => exact rWord_unused_all ..
  | scan => exact iWord_unused_rs ..
  | beq | bne | addi | lw | cbeq | thrust | j | call | callbase | autoevade => exact BitVec.and_zero

/-- The fields of an instruction's word are its operands (R46). -/
theorem build_encodeWord (e : Enc) (i : Instr) : i.mnemonic.build (encodeWord e i) = i := by
  cases i <;> simp [Instr.mnemonic, Mnemonic.build, encodeWord]

/-- The word of an instruction has its row's funct under opcode 0, or its row's opcode (R49). -/
theorem encodeWord_code (e : Enc) (i : Instr) :
    (i.mnemonic ∈ rMnemonics ∧ opcodeField (encodeWord e i) = 0 ∧
      functField (encodeWord e i) = e.code i.mnemonic) ∨
    (i.mnemonic ∈ ijMnemonics ∧ opcodeField (encodeWord e i) = e.code i.mnemonic) := by
  cases i with
  | beq | bne | addi | lw | cbeq | thrust | scan =>
    exact .inr ⟨by simp [ijMnemonics, Instr.mnemonic], opcodeField_iWord ..⟩
  | j | call | callbase | autoevade => exact .inr ⟨by simp [ijMnemonics, Instr.mnemonic], opcodeField_jWord ..⟩
  | _ => exact .inl ⟨by simp [rMnemonics, Instr.mnemonic], opcodeField_rWord .., functField_rWord ..⟩

/-! ## A decoded word is the encoding of its instruction -/

/-- A field that lies in a row's unused bits is zero in every word of the row. -/
theorem field_eq_zero_of_unused {w mask : Word} {start len : Nat} (hz : w &&& mask = 0)
    (hm : mask.extractLsb' start len = BitVec.allOnes len) : w.extractLsb' start len = 0 := by
  have h := congrArg (BitVec.extractLsb' start len) hz
  rw [BitVec.extractLsb'_and, hm, BitVec.and_allOnes] at h
  exact h.trans BitVec.extractLsb'_zero

section
variable {w mask : Word}

theorem rsField_eq_zero (hz : w &&& mask = 0) (hm : mask.extractLsb' 21 5 = BitVec.allOnes 5) : rsField w = 0 := by
  rw [rsField, field_eq_zero_of_unused hz hm]; rfl

theorem rtField_eq_zero (hz : w &&& mask = 0) (hm : mask.extractLsb' 16 5 = BitVec.allOnes 5) : rtField w = 0 := by
  rw [rtField, field_eq_zero_of_unused hz hm]; rfl

theorem rdField_eq_zero (hz : w &&& mask = 0) (hm : mask.extractLsb' 11 5 = BitVec.allOnes 5) : rdField w = 0 := by
  rw [rdField, field_eq_zero_of_unused hz hm]; rfl

end

/-- Every R-format row has the shamt unused (R41). -/
theorem shamt_eq_zero {m : Mnemonic} (hm : m ∈ rMnemonics) {w : Word} (hz : w &&& m.unusedMask = 0) :
    w.extractLsb' 6 5 = 0 := by
  have hall : ∀ n ∈ rMnemonics, n.unusedMask.extractLsb' 6 5 = BitVec.allOnes 5 := by decide
  exact field_eq_zero_of_unused hz (hall m hm)

/-- The instruction of an R-format row encodes as the row's code and the word's fields. -/
theorem encodeWord_build_r (e : Enc) {m : Mnemonic} (hm : m ∈ rMnemonics) {w : Word} (hz : w &&& m.unusedMask = 0) :
    encodeWord e (m.build w) = rWord (e.code m) (rsField w) (rtField w) (rdField w) := by
  cases m with
  | add | sub | mul | xor | or | and | slt | lockon | deploybits => rfl
  | transam | boost =>
    rw [rtField_eq_zero hz rfl]; rfl
  | jr | shieldup | energize =>
    rw [rtField_eq_zero hz rfl, rdField_eq_zero hz rfl]; rfl
  | syscall =>
    rw [rsField_eq_zero hz rfl, rtField_eq_zero hz rfl, rdField_eq_zero hz rfl]; rfl
  | _ => simp [rMnemonics] at hm

/-- The instruction of an I-format row encodes as the row's code and the word's fields. -/
theorem encodeWord_build_i (e : Enc) {m : Mnemonic} (hm : m.format = .i) {w : Word} (hz : w &&& m.unusedMask = 0) :
    encodeWord e (m.build w) = iWord (e.code m) (rsField w) (rtField w) (immField w) := by
  cases m with
  | beq | bne | addi | lw | cbeq | thrust => rfl
  | scan => rw [rsField_eq_zero hz rfl]; rfl
  | _ => cases hm

/-- The same for the J-format rows, which use every field. -/
theorem encodeWord_build_j (e : Enc) {m : Mnemonic} (hm : m.format = .j) (w : Word) :
    encodeWord e (m.build w) = jWord (e.code m) (targetField w) := by
  cases m with
  | j | call | callbase | autoevade => rfl
  | _ => cases hm

theorem format_of_mem_ijMnemonics {m : Mnemonic} (hm : m ∈ ijMnemonics) : m.format = .i ∨ m.format = .j := by
  have hall : ∀ n ∈ ijMnemonics, n.format = .i ∨ n.format = .j := by decide
  exact hall m hm

/-! ## The round trips -/

/-- Settles O10: the encoded word has the row's code, its unused fields are zero, and its fields are the operands. -/
theorem decodeUndoesEncode : Obligations.DecodeUndoesEncode := by
  intro e he i
  have hz := encodeWord_unused e i
  obtain ⟨hm, ho, hc⟩ | ⟨hm, hc⟩ := encodeWord_code e i
  · rw [decodeWord_r he hm ho hc hz, build_encodeWord]
  · rw [decodeWord_ij he hm hc hz, build_encodeWord]

/-- Settles O11: a word is put together again from its fields, those of the unused ones being zero. -/
theorem encodeUndoesDecode : Obligations.EncodeUndoesDecode := by
  intro e w i h
  obtain ⟨m, rfl, hz, ⟨ho, hm, hc⟩ | ⟨-, hm, hc⟩⟩ := decodeWord_ok h
  · rw [encodeWord_build_r e hm hz, hc, rWord_fields ho (shamt_eq_zero hm hz)]
  · obtain hi | hj := format_of_mem_ijMnemonics hm
    · rw [encodeWord_build_i e hi hz, hc, iWord_fields]
    · rw [encodeWord_build_j e hj, hc, jWord_fields]

/-! ## The opcode table of ENC_SPEC -/

theorem encodeWord_selectedBy (i : Instr) : i.mnemonic.selectedBy (encodeWord encSpec i) := by
  cases i with
  | add => exact Laws.OpcodeRow.add ..
  | sub => exact Laws.OpcodeRow.sub ..
  | mul => exact Laws.OpcodeRow.mul ..
  | xor => exact Laws.OpcodeRow.xor ..
  | or => exact Laws.OpcodeRow.or ..
  | and => exact Laws.OpcodeRow.and ..
  | slt => exact Laws.OpcodeRow.slt ..
  | jr => exact Laws.OpcodeRow.jr ..
  | lockon => exact Laws.OpcodeRow.lockon ..
  | shieldup => exact Laws.OpcodeRow.shieldup ..
  | transam => exact Laws.OpcodeRow.transam ..
  | deploybits => exact Laws.OpcodeRow.deploybits ..
  | energize => exact Laws.OpcodeRow.energize ..
  | boost => exact Laws.OpcodeRow.boost ..
  | syscall => exact Laws.OpcodeRow.syscall
  | beq => exact Laws.OpcodeRow.beq ..
  | bne => exact Laws.OpcodeRow.bne ..
  | addi => exact Laws.OpcodeRow.addi ..
  | lw => exact Laws.OpcodeRow.lw ..
  | cbeq => exact Laws.OpcodeRow.cbeq ..
  | thrust => exact Laws.OpcodeRow.thrust ..
  | scan => exact Laws.OpcodeRow.scan ..
  | j => exact Laws.OpcodeRow.j ..
  | call => exact Laws.OpcodeRow.call ..
  | callbase => exact Laws.OpcodeRow.callbase ..
  | autoevade => exact Laws.OpcodeRow.autoevade ..

section
variable {m : Mnemonic} {w : Word}

/-- A field the mask covers is the match column's own field. -/
theorem field_of_selected (h : m.selectedBy w) {start len : Nat}
    (hm : m.rowMask.extractLsb' start len = BitVec.allOnes len) :
    w.extractLsb' start len = m.rowMatch.extractLsb' start len := by
  rw [← h, BitVec.extractLsb'_and, hm, BitVec.and_allOnes]

theorem opcodeField_of_selected (h : m.selectedBy w) : opcodeField w = opcodeField m.rowMatch :=
  field_of_selected h (by cases m <;> rfl)

theorem functField_of_selected (h : m.selectedBy w) (hm : m ∈ rMnemonics) :
    functField w = functField m.rowMatch := by
  have hall : ∀ n ∈ rMnemonics, n.rowMask.extractLsb' 0 6 = BitVec.allOnes 6 := by decide
  exact field_of_selected h (hall m hm)

/-- The mask covers the unused fields, and the match column has them zero. -/
theorem unused_of_selected (h : m.selectedBy w) : w &&& m.unusedMask = 0 := by
  have hmask : m.rowMask &&& m.unusedMask = m.unusedMask := by cases m <;> rfl
  have hmatch : m.rowMatch &&& m.unusedMask = 0 := by cases m <;> rfl
  calc w &&& m.unusedMask
    _ = (w &&& m.rowMask) &&& m.unusedMask := by rw [BitVec.and_assoc, hmask]
    _ = 0 := by rw [h, hmatch]

theorem mem_rMnemonics_or_ijMnemonics (m : Mnemonic) : m ∈ rMnemonics ∨ m ∈ ijMnemonics := by
  cases m <;> decide

theorem mnemonic_build (m : Mnemonic) (w : Word) : (m.build w).mnemonic = m := by
  cases m <;> rfl

/-- A word that a row of the table selects decodes to that row (R50, R51). -/
theorem decodeWord_of_selected (h : m.selectedBy w) : decodeWord encSpec w = .ok (m.build w) := by
  have hwf : encSpec.wf := by decide
  have hz := unused_of_selected h
  obtain hm | hm := mem_rMnemonics_or_ijMnemonics m
  · have hcode : ∀ n ∈ rMnemonics, opcodeField n.rowMatch = 0 ∧ functField n.rowMatch = encSpec.code n := by decide
    obtain ⟨ho, hf⟩ := hcode m hm
    exact decodeWord_r hwf hm ((opcodeField_of_selected h).trans ho) ((functField_of_selected h hm).trans hf) hz
  · have hcode : ∀ n ∈ ijMnemonics, opcodeField n.rowMatch = encSpec.code n := by decide
    exact decodeWord_ij hwf hm ((opcodeField_of_selected h).trans (hcode m hm)) hz

end

/-- Settles O12: a decoded word is the encoding of its instruction and so lies in its row, and a word of a row decodes
to that row; two rows that select a word are the one it decodes to. -/
theorem decoderAgreesWithTheOpcodeTable : Obligations.DecoderAgreesWithTheOpcodeTable := by
  refine ⟨fun w m => ⟨?_, fun h => ⟨_, decodeWord_of_selected h, mnemonic_build m w⟩⟩, fun w m n hm hn => ?_⟩
  · rintro ⟨i, hd, rfl⟩
    have h := encodeWord_selectedBy i
    rwa [encodeUndoesDecode encSpec w i hd] at h
  · have hb : m.build w = n.build w :=
      Except.ok.inj ((decodeWord_of_selected hm).symm.trans (decodeWord_of_selected hn))
    rw [← mnemonic_build m w, hb, mnemonic_build]

/-- Settles O13, by evaluation of the decoder on the thirteen words. -/
theorem specDecodingVectors : Obligations.SpecDecodingVectors := by
  unfold Obligations.SpecDecodingVectors
  decide

end Sys2Proof
end

section
/-! Where an instruction leaves the pc: the next word, a branch target, a jump target or a register, and what that says
of alignment (10_state.md R20 to R22; 40_functional_units.md R80 to R86). -/

namespace Sys2Proof.Machine

variable {i : Instr} {s t : State}

/-! ## The pc after an instruction -/

/-- The instructions that end at a branch target or at pc + 4 (R82). -/
def branches : List Mnemonic := [.beq, .bne, .cbeq]

/-- The instructions that end at a jump target, AUTOEVADE among them where DANGER is set (R80). -/
def jumps : List Mnemonic := [.j, .call, .callbase, .autoevade]

/-- Every place where an instruction other than SYSCALL can leave the pc (R21). -/
inductive NextPc (i : Instr) (s : State) : Word → Prop
  | advance : NextPc i s (s.pc + 4)
  | branch (imm : Imm16) (hi : i.mnemonic ∈ branches) : NextPc i s (branchTarget s.params.branchConv s.pc imm)
  | jump (a : Target26) (hi : i.mnemonic ∈ jumps) : NextPc i s (jumpTarget s.pc a)
  | register (rs : Reg) (hi : i = .jr rs) : NextPc i s (s.readReg rs)

theorem branchIf_nextPc {c : Bool} {imm : Imm16} (hi : i.mnemonic ∈ branches) (h : branchIf c imm s = .next t) :
    NextPc i s t.pc := by
  obtain ⟨-, he⟩ | ⟨-, he⟩ := branchIf_cases c imm s <;> cases he.symm.trans h
  · exact .branch imm hi
  · exact .advance

theorem exec_nextPc (hi : i ≠ .syscall) (h : exec i s = .next t) : NextPc i s t.pc := by
  cases i with
  | syscall => exact absurd rfl hi
  | add => obtain ⟨y, -, rfl⟩ := execAdd_next h; exact .advance
  | sub => obtain ⟨y, -, rfl⟩ := execSub_next h; exact .advance
  | addi => obtain ⟨y, -, rfl⟩ := execAddi_next h; exact .advance
  | lw => obtain ⟨v, -, rfl⟩ := execLw_next h; exact .advance
  | deploybits => obtain ⟨q, -, ⟨-, rfl⟩ | ⟨-, rfl⟩⟩ := execDeploybits_next h <;> exact .advance
  | transam rs rd =>
    obtain ⟨-, he⟩ | ⟨-, he⟩ := execTransam_next rs rd s <;> cases he.symm.trans h <;> exact .advance
  | autoevade a =>
    obtain ⟨-, he⟩ | ⟨-, he⟩ := execAutoevade_next a s <;> cases he.symm.trans h
    · exact .jump a (by simp [jumps, Instr.mnemonic])
    · exact .advance
  | beq | bne | cbeq => exact branchIf_nextPc (by simp [branches, Instr.mnemonic]) h
  | j a | call a | callbase a => cases h; exact .jump a (by simp [jumps, Instr.mnemonic])
  | jr rs => cases h; exact .register rs rfl
  | _ => cases h; exact .advance

/-- R22, R86: after an aligned pc only a register's contents can be misaligned. -/
theorem NextPc.aligned_or_register {p : Word} (h : NextPc i s p) (ha : aligned s.pc) :
    aligned p ∨ ∃ rs, i = .jr rs ∧ p = s.readReg rs := by
  cases h with
  | advance => exact .inl (add_aligned ha (by decide))
  | branch imm => exact .inl (branchTarget_aligned _ ha imm)
  | jump a => exact .inl (jumpTarget_aligned _ a)
  | register rs hjr => exact .inr ⟨rs, hjr, rfl⟩

/-- R21: an instruction that is no control transfer is followed by the next word. -/
theorem NextPc.eq_of_not_transfer {p : Word} (h : NextPc i s p) (hi : i.mnemonic ∉ transfers) : p = s.pc + 4 := by
  have hb : branches ⊆ transfers := by decide
  have hj : jumps ⊆ transfers := by decide
  cases h with
  | advance => rfl
  | branch imm hm => exact absurd (hb hm) hi
  | jump a hm => exact absurd (hj hm) hi
  | register rs hjr => exact absurd (by simp [hjr, transfers, Instr.mnemonic]) hi

/-! ## Branch targets as integers -/

/-- The scaled immediate is four times the field's signed value, modulo 2^32 (R46, R81). -/
theorem scaledImm_toNat (imm : Imm16) : ((scaledImm imm).toNat : Int) = 4 * imm.toInt % 2 ^ 32 := by
  have hs : ((sext32 imm).toNat : Int) = imm.toInt % 4294967296 := ofInt_toNat imm.toInt
  rw [scaledImm, BitVec.toNat_shiftLeft, Nat.shiftLeft_eq]
  omega

theorem btRelative_toNat (pc : Word) (f : Imm16) :
    ((btRelative pc f).toNat : Int) = (pc.toNat + 4 + 4 * f.toInt) % 2 ^ 32 := by
  have hs := scaledImm_toNat f
  change ((pc + 4 + scaledImm f).toNat : Int) = _
  rw [BitVec.toNat_add, BitVec.toNat_add]
  have h4 : (4 : Word).toNat = 4 := rfl
  omega

/-! ## The statements -/

/-- Settles O28: from the aligned pc of a fetch the next pc is aligned, unless JR or a handler's redirect chose it. -/
theorem stepsKeepThePcAligned : Obligations.StepsKeepThePcAligned := by
  intro e s t h
  obtain ⟨w, i, ha, hw, hd, hexec⟩ := stepWith_next (stepWith_of_step h)
  by_cases hsys : i = .syscall
  · subst hsys
    obtain ⟨eff, hans, rfl⟩ := execSyscall_next hexec
    cases hr : eff.redirect with
    | none => exact .inl (add_aligned ha (by decide))
    | some a => exact .inr (.inr ⟨w, eff, a, hw, hd, hans, hr, rfl⟩)
  · obtain hal | ⟨rs, rfl, hpc⟩ := (exec_nextPc hsys hexec).aligned_or_register ha
    · exact .inl hal
    · exact .inr (.inl ⟨w, rs, hw, hd, hpc⟩)

/-- Settles O26, by the fields of BT_REGION, the sum of BT_RELATIVE and the alignment of every convention. -/
theorem branchTargetFollowsItsConvention : Obligations.BranchTargetFollowsItsConvention := fun pc f =>
  ⟨btRegion_fields pc f, btRelative_toNat pc f, fun c ha => branchTarget_aligned c ha f⟩

/-- Settles O27: JR is the one instruction that ends at a register's contents. -/
theorem onlyJumpRegisterMisalignsThePc : Obligations.OnlyJumpRegisterMisalignsThePc := by
  refine ⟨fun i s t ha hi hjr h => ?_, fun rs s t h => ?_⟩
  · obtain hal | ⟨rs, rfl, -⟩ := (exec_nextPc hi h).aligned_or_register ha
    · exact hal
    · exact absurd rfl hjr
  · cases h
    exact Iff.rfl

/-- Settles O29: of the places where the pc can be left, all but the next word are a transfer's. -/
theorem onlyTransfersRedirect : Obligations.OnlyTransfersRedirect := fun _ _ _ hi htr h =>
  (exec_nextPc hi h).eq_of_not_transfer htr

end Sys2Proof.Machine
end

section
/-! What an instruction writes and what it can see: its registers by field and by role, DANGER and CALLBASE, and that
the memories are seen by LW and the host alone
(10_state.md section 1; 20_memory.md section 1; 92_eei_decisions.md D23). -/

namespace Sys2Proof.Machine

variable {i : Instr} {s t : State}

/-! ## The registers an instruction writes -/

/-- The registers an instruction other than SYSCALL writes by role (R12, R16, R84, R122, R125). -/
def regsByRole : Instr → List Reg
  | .lw _ _ _ | .lockon _ _ _ | .shieldup _ | .deploybits _ _ _ | .thrust _ _ _ | .scan _ _ | .boost _ _ => [srReg]
  | .transam _ _ => [enReg, srReg]
  | .energize _ => [enReg]
  | .call _ => [linkReg]
  | .callbase _ => [linkReg, srReg]
  | _ => []

/-- The registers an instruction other than SYSCALL writes: by field, then by role (R62). -/
def regsWritten (i : Instr) : List Reg := i.dest?.toList ++ regsByRole i

theorem branchIf_sameOutside {c : Bool} {imm : Imm16} (h : branchIf c imm s = .next t) : SameOutside [] s t := by
  obtain ⟨-, he⟩ | ⟨-, he⟩ := branchIf_cases c imm s <;> cases he.symm.trans h <;> exact (SameOutside.refl s).setPc _

/-- An instruction other than SYSCALL changes the pc and the registers it writes, and nothing else. -/
theorem exec_sameOutside (hi : i ≠ .syscall) (h : exec i s = .next t) : SameOutside (regsWritten i) s t := by
  have same : SameOutside (regsWritten i) s s := (SameOutside.refl s).mono (by simp)
  have dest {d : Reg} (e : i.dest? = some d) : d ∈ regsWritten i := by simp [regsWritten, e]
  have role {r : Reg} (hr : r ∈ regsByRole i) : r ∈ regsWritten i := List.mem_append_right _ hr
  cases i with
  | syscall => exact absurd rfl hi
  | add => obtain ⟨y, -, rfl⟩ := execAdd_next h; exact same.writeReg (dest rfl) y
  | sub => obtain ⟨y, -, rfl⟩ := execSub_next h; exact same.writeReg (dest rfl) y
  | addi => obtain ⟨y, -, rfl⟩ := execAddi_next h; exact same.writeReg (dest rfl) y
  | mul | xor | or | and | slt => cases h; exact same.writeReg (dest rfl) _
  | lw =>
    obtain ⟨v, -, rfl⟩ := execLw_next h
    exact (same.writeReg (dest rfl) v).updateZN (role (by simp [regsByRole])) v
  | thrust | scan | boost =>
    cases h
    exact (same.writeReg (dest rfl) _).updateZN (role (by simp [regsByRole])) _
  | lockon =>
    have hsr := role (r := srReg) (by simp [regsByRole])
    cases h
    exact ((same.writeReg (dest rfl) _).setFlag hsr .lockon _).updateZN hsr _
  | shieldup => cases h; exact same.setFlag (role (by simp [regsByRole])) .shield _
  | transam rs rd =>
    have hsr := role (r := srReg) (by simp [regsByRole])
    obtain ⟨-, he⟩ | ⟨-, he⟩ := execTransam_next rs rd s <;> cases he.symm.trans h
    · exact (((same.writeReg (dest rfl) _).spendEnergy (role (by simp [regsByRole]))).setFlag hsr _ _).updateZN hsr _
    · exact ((same.writeReg (dest rfl) _).setFlag hsr _ _).updateZN hsr _
  | deploybits =>
    have hsr := role (r := srReg) (by simp [regsByRole])
    obtain ⟨q, -, ⟨-, rfl⟩ | ⟨-, rfl⟩⟩ := execDeploybits_next h
    · exact ((same.writeReg (dest rfl) q).updateZN hsr q).setFlag hsr _ _
    · exact (same.writeReg (dest rfl) q).updateZN hsr q
  | energize => cases h; exact same.writeReg (role (by simp [regsByRole])) _
  | beq | bne | cbeq => exact (branchIf_sameOutside h).mono (by simp)
  | jr | j => cases h; exact same
  | call => cases h; exact same.writeReg (role (by simp [regsByRole])) _
  | callbase =>
    have hsr := role (r := srReg) (by simp [regsByRole])
    cases h
    exact (same.writeReg (r := linkReg) (role (by simp [regsByRole])) _).setFlag hsr .callbase _
  | autoevade a =>
    obtain ⟨-, he⟩ | ⟨-, he⟩ := execAutoevade_next a s <;> cases he.symm.trans h <;> exact same

/-- The roles of the catalog: LINK by the calls, EN by TRANSAM and ENERGIZE, SR by the flag writers (R12, R16). -/
theorem mem_regsByRole {r : Reg} (h : r ∈ regsByRole i) :
    (r = 7 ∧ i.mnemonic ∈ [.call, .callbase]) ∨ (r = 25 ∧ i.mnemonic ∈ [.transam, .energize]) ∨
      (r = 27 ∧ i.mnemonic ∈ flagWriters) := by
  cases i with
  | transam | callbase =>
    obtain rfl | rfl : _ ∨ _ := by simpa [regsByRole] using h
    all_goals simp [flagWriters, Instr.mnemonic]
  | lw | lockon | shieldup | deploybits | thrust | scan | boost | energize | call =>
    obtain rfl := List.mem_singleton.1 h
    simp [flagWriters, Instr.mnemonic]
  | _ => cases h

/-! ## DANGER and CALLBASE -/

section
variable (hi : i ≠ .syscall) (hd : i.dest? ≠ some srReg) (h : exec i s = .next t)
include hi hd h

theorem exec_keeps_flag {f : Flag} (hf : f.bit ∉ srBitsByRole i) : t.getFlag f = s.getFlag f :=
  exec_keeps_srBits hi hd h f.bit hf

/-- DEPLOYBITS alone writes DANGER by role, and it clears the flag (R123). -/
theorem exec_danger : t.getFlag .danger = s.getFlag .danger ∨ t.getFlag .danger = false := by
  cases i with
  | deploybits rs rt rd =>
    obtain ⟨q, -, ⟨-, rfl⟩ | ⟨-, rfl⟩⟩ := execDeploybits_next h
    · exact .inr (getFlag_setFlag_self ..)
    · have hrd : rd ≠ srReg := fun e => hd (e ▸ rfl)
      have hkept : BitsKept [0, 1] (s.readReg srReg) (((s.writeReg rd q).updateZN q).readReg srReg) :=
        ((BitsKept.refl _).writeReg hrd q).updateZN q
      exact .inl (hkept 7 (by decide))
  | _ => exact .inl (exec_keeps_flag hi hd h (by simp [srBitsByRole, Flag.bit]))

/-- The callbase call alone writes CALLBASE by role, and it sets the flag (R106). -/
theorem exec_callbase : t.getFlag .callbase = s.getFlag .callbase ∨ t.getFlag .callbase = true := by
  cases i with
  | callbase a =>
    cases h
    exact .inr (getFlag_setFlag_self ..)
  | _ => exact .inl (exec_keeps_flag hi hd h (by simp [srBitsByRole, Flag.bit]))

end

/-! ## Changes of the state that an instruction does not see -/

/-- A change of the state that neither sees nor touches the registers, the pc and the parameters: new contents of a
memory, for one. -/
structure Unseen (g : State → State) : Prop where
  readReg : ∀ s r, (g s).readReg r = s.readReg r
  pc : ∀ s, (g s).pc = s.pc
  params : ∀ s, (g s).params = s.params
  writeReg : ∀ s r v, (g s).writeReg r v = g (s.writeReg r v)
  setPc : ∀ s a, (g s).setPc a = g (s.setPc a)

theorem unseen_setMem (m : Memory) : Unseen (·.setMem m) :=
  ⟨fun _ _ => rfl, fun _ => rfl, fun _ => rfl, fun _ _ _ => rfl, fun _ _ => rfl⟩

theorem unseen_setImem (m : Memory) : Unseen (·.setImem m) :=
  ⟨fun _ _ => rfl, fun _ => rfl, fun _ => rfl, fun _ _ _ => rfl, fun _ _ => rfl⟩

/-- The outcome of a step with its next state changed. -/
def mapNext (g : State → State) : Result → Result
  | .next t => .next (g t)
  | .fault f => .fault f
  | .refused r => .refused r

theorem mapNext_withChecked (g : State → State) (r : Except Fault Word) (k : Word → Result) :
    mapNext g (withChecked r k) = withChecked r fun v => mapNext g (k v) := by
  cases r <;> rfl

namespace Unseen

section
variable {g : State → State} (hg : Unseen g) (s : State)
include hg

theorem setFlag (f : Flag) (b : Bool) : (g s).setFlag f b = g (s.setFlag f b) := by
  rw [State.setFlag, hg.readReg, hg.writeReg]; rfl

theorem updateZN (v : Word) : (g s).updateZN v = g (s.updateZN v) := by
  rw [State.updateZN, hg.readReg, hg.writeReg]; rfl

theorem spendEnergy : (g s).spendEnergy = g s.spendEnergy := by
  rw [State.spendEnergy, hg.readReg, hg.writeReg]; rfl

theorem getFlag (f : Flag) : (g s).getFlag f = s.getFlag f := by
  rw [State.getFlag, hg.readReg]; rfl

theorem advance : advance (g s) = mapNext g (advance s) := by
  rw [advance_eq, hg.pc, hg.setPc]; rfl

theorem redirect (a : Word) : redirect (g s) a = mapNext g (redirect s a) := by
  rw [redirect_eq, hg.setPc]; rfl

theorem branchIf (c : Bool) (imm : Imm16) : branchIf c imm (g s) = mapNext g (branchIf c imm s) := by
  cases c
  · exact hg.advance s
  · change Machine.redirect (g s) (branchTarget (g s).params.branchConv (g s).pc imm) = _
    rw [hg.params, hg.pc, hg.redirect]; rfl

theorem callSeq (a : Target26) (b : Bool) : callSeq a b (g s) = mapNext g (callSeq a b s) := by
  cases b <;> simp [Machine.callSeq, hg.pc, hg.writeReg, hg.setFlag, hg.redirect]

/-- An instruction other than SYSCALL, LW where the change keeps data reads, commutes with a change it does not see. -/
theorem exec {i : Instr} (hi : i ≠ .syscall) (hl : i.mnemonic = .lw → ∀ a, (g s).memRead a = s.memRead a) :
    exec i (g s) = mapNext g (exec i s) := by
  cases i with
  | syscall => exact absurd rfl hi
  | add | sub | addi =>
    simp [Machine.exec, execAdd, execSub, execAddi, hg.readReg, hg.writeReg, hg.advance, mapNext_withChecked]
  | mul | xor | or | and | slt | energize =>
    simp [Machine.exec, execMul, execXor, execOr, execAnd, execSlt, execEnergize, hg.readReg, hg.writeReg, hg.advance]
  | lw =>
    simp [Machine.exec, execLw, loadAddress, hl rfl, hg.readReg, hg.writeReg, hg.updateZN, hg.advance,
      mapNext_withChecked]
  | thrust | scan | boost =>
    simp [Machine.exec, execThrust, execScan, scanValue, execBoost, hg.readReg, hg.writeReg, hg.updateZN, hg.advance]
  | lockon => simp [Machine.exec, execLockon, hg.readReg, hg.writeReg, hg.setFlag, hg.updateZN, hg.advance]
  | shieldup => simp [Machine.exec, execShieldup, hg.readReg, hg.setFlag, hg.advance]
  | transam =>
    simp only [Machine.exec, execTransam, hg.readReg, hg.writeReg, hg.spendEnergy, hg.setFlag, hg.updateZN, hg.advance]
    split <;> rfl
  | deploybits =>
    simp only [Machine.exec, execDeploybits, hg.readReg, hg.params, hg.writeReg, hg.updateZN, hg.setFlag,
      mapNext_withChecked]
    congr 1
    funext q
    split <;> exact hg.advance _
  | beq | bne | cbeq => simp [Machine.exec, execBeq, execBne, execCbeq, hg.readReg, hg.branchIf]
  | jr | j => simp [Machine.exec, execJr, execJ, hg.readReg, hg.pc, hg.redirect]
  | call a => exact hg.callSeq s a false
  | callbase a => exact hg.callSeq s a true
  | autoevade =>
    simp only [Machine.exec, execAutoevade, hg.getFlag, hg.pc, hg.redirect, hg.advance]
    split <;> rfl

end

end Unseen

/-! ## The statements -/

/-- Settles O30: a register outside those written by field or by role is kept, and the roles are the catalog's. -/
theorem registersChangeOnlyByFieldOrRole : Obligations.RegistersChangeOnlyByFieldOrRole := by
  intro i s t r hi h hne
  obtain ⟨hkept, -⟩ := exec_sameOutside hi h
  have hmem : r ∈ regsWritten i := by_contra fun hr => hne (hkept r hr)
  obtain hfield | hrole := List.mem_append.1 hmem
  · exact .inl (Option.mem_toList.1 hfield)
  · exact .inr (mem_regsByRole hrole)

/-- Settles O19: the one write of DANGER by role clears it, the one of CALLBASE sets it. -/
theorem dangerIsNeverSetNorCallbaseClearedByRole : Obligations.DangerIsNeverSetNorCallbaseClearedByRole := by
  intro i s t hi hd h
  refine ⟨fun hset => ?_, fun hset => ?_⟩
  · obtain he | he := exec_danger hi hd h
    · exact he ▸ hset
    · cases he.symm.trans hset
  · obtain he | he := exec_callbase hi hd h
    · exact he.trans hset
    · exact he

/-- Settles O34: new contents of either memory are a change that an instruction does not see, LW apart for data
memory. -/
theorem onlyLoadsSeeDataMemory : Obligations.OnlyLoadsSeeDataMemory := by
  intro i s m hi
  have hmem (hl : i.mnemonic ≠ .lw) : exec i (s.setMem m) = mapNext (·.setMem m) (exec i s) :=
    (unseen_setMem m).exec s hi fun e => absurd e hl
  have himem : exec i (s.setImem m) = mapNext (·.setImem m) (exec i s) :=
    (unseen_setImem m).exec s hi fun _ => memRead_congr rfl rfl
  refine ⟨fun hl t h => ?_, fun hl f h => ?_, fun t h => ?_, fun f h => ?_⟩
  · rw [hmem hl, h]; rfl
  · rw [hmem hl, h]; rfl
  · rw [himem, h]; rfl
  · rw [himem, h]; rfl

end Sys2Proof.Machine
end

section
/-! Data words, UpdateZN and CheckedDiv: what a word write leaves for every read, Zero and Negative from a value, and
the three cases of a division (20_memory.md R30 to R35; 40_functional_units.md R66, R73). -/

namespace Sys2Proof.Machine

variable {s t : State} {a v : Word}

/-! ## Data words -/

theorem memRead_of_readWord (ha : aligned a) (hv : s.mem.readWord s.params.byteOrder a = some v) :
    s.memRead a = .ok v := by
  simp only [State.memRead, if_pos ha, hv]

theorem memRead_misaligned (ha : ¬ aligned a) : s.memRead a = .error (.addressFault a) := if_neg ha

theorem memRead_unlisted (hv : s.mem.readWord s.params.byteOrder a = none) :
    s.memRead a = .error (.addressFault a) := by
  simp only [State.memRead, hv, ite_self]

/-- A write that MEM_FAULT lets pass is of an aligned address, and replaces data memory alone. -/
theorem memWrite_ok (h : s.memWrite a v = .ok t) :
    aligned a ∧ t = s.setMem (s.mem.writeWord s.params.byteOrder a v) := by
  obtain ⟨-, he⟩ | ⟨hf, he⟩ := memWrite_cases s a v <;> cases he.symm.trans h
  exact ⟨by_contra fun ha => Bool.false_ne_true (hf.symm.trans (memFault_misaligned s ha)), rfl⟩

/-- A word write is invisible to the read of another address: a misaligned one faults as before (R35). -/
theorem memRead_writeWord_ne {b : Word} (ha : aligned a) (hne : b ≠ a) :
    (s.setMem (s.mem.writeWord s.params.byteOrder a v)).memRead b = s.memRead b := by
  by_cases hb : aligned b
  · simp only [State.memRead, setMem_mem, setMem_params, Memory.readWord_writeWord_ne _ s.mem v ha hb hne]
  · rw [memRead_misaligned hb, memRead_misaligned hb]

/-! ## Zero and Negative -/

/-- No value is zero and negative at once (R66). -/
theorem not_zero_and_negative {after : Word} (h : ZnOf v after) :
    ¬ (after.getLsbD 0 = true ∧ after.getLsbD 1 = true) := by
  rintro ⟨hz, hn⟩
  obtain ⟨h0, h1⟩ := h
  rw [h0, decide_eq_true_eq, ← eq_zero_iff_toNat] at hz
  rw [h1, decide_eq_true_eq, hz] at hn
  exact absurd hn (by decide)

/-! ## The statements -/

/-- Settles O14: the written word is aligned, so it reads back and is apart from every other one that can be read. -/
theorem dataWordReadsBackAsWritten : Obligations.DataWordReadsBackAsWritten := by
  intro s t addr v h
  obtain ⟨ha, rfl⟩ := memWrite_ok h
  refine ⟨?_, fun other hne => memRead_writeWord_ne ha hne, fun hwf => Memory.writeWord_wf hwf _ ha v⟩
  exact memRead_of_readWord ha (Memory.readWord_writeWord_self ..)

/-- Settles O15, by the two outcomes of a data read. -/
theorem dataReadFaultsExactlyOnMemFault : Obligations.DataReadFaultsExactlyOnMemFault := by
  intro s addr
  refine ⟨memFault_misaligned s, fun hf => ?_, fun hf => ?_⟩ <;>
    obtain ⟨v, hok, -, hv, hf'⟩ | ⟨herr, hf'⟩ := memRead_cases s addr
  · exact absurd (hf'.symm.trans hf) Bool.false_ne_true
  · exact herr
  · exact ⟨v, hv, hok⟩
  · exact absurd (hf.symm.trans hf') Bool.false_ne_true

/-- Settles O17: UpdateZN is one write of SR, with bits 0 and 1 derived and the others kept. -/
theorem updateZnDerivesBothBits : Obligations.UpdateZnDerivesBothBits := fun s v =>
  ⟨znOf_updateZN s v, not_zero_and_negative (znOf_updateZN s v), (BitsKept.refl _).updateZN v, updateZN_pc s v,
    sameOutside_write s srReg _⟩

/-- Settles O23: the three cases of CheckedDiv exclude each other, so each condition picks its own. -/
theorem checkedDivRoundsTowardZero : Obligations.CheckedDivRoundsTowardZero := by
  intro p a b
  obtain ⟨he, rfl⟩ | ⟨he, rfl, rfl⟩ | ⟨q, he, hq, hb, hab⟩ := checkedDiv_cases p a b
  · exact ⟨fun _ => he, fun _ hb => absurd hb (by decide), fun hb => absurd rfl hb⟩
  · exact ⟨fun hb => absurd hb (by decide), fun _ _ => he, fun _ hab => absurd ⟨rfl, rfl⟩ hab⟩
  · exact ⟨fun h => absurd h hb, fun ha h => absurd ⟨ha, h⟩ hab, fun _ _ => ⟨q, he, hq⟩⟩

end Sys2Proof.Machine
end

section
/-! Results and frames of the arithmetic instructions, of CBEQ and J, and of the calls and the return from them
(41_arith_logic.md; 42_control_flow.md; 40_functional_units.md R84). -/

namespace Sys2Proof.Machine

/-! ## Checked arithmetic -/

/-- An instruction that writes a checked value to rd and advances completes with the exact result n where n fits, and
faults otherwise (R62, R70, R71). -/
theorem exec_checked_result {i : Instr} {s : State} {rd : Reg} {r : Except Fault Word} {v : Word} {n : Int}
    (hx : exec i s = withChecked r fun y => advance (s.writeReg rd y))
    (hr : (fits n → r = .ok v ∧ v.toInt = n) ∧ (¬ fits n → r = .error .arithmeticOverflow)) :
    (fits n → ∃ t, exec i s = .next t ∧ (t.readReg rd).toInt = n ∧ t.pc = s.pc + 4 ∧ SameOutside [rd] s t) ∧
    (¬ fits n → exec i s = .fault .arithmeticOverflow) := by
  obtain ⟨hfits, hnot⟩ := hr
  refine ⟨fun hn => ?_, fun hn => ?_⟩
  · obtain ⟨rfl, hv⟩ := hfits hn
    obtain ⟨t, ht, hrd, hframe⟩ := exec_of_advance_writeReg hx
    exact ⟨t, ht, hrd ▸ hv, hframe⟩
  · rw [hx, hnot hn, withChecked_error]

/-! ## Calls -/

section
variable (s : State) (a : Target26)

/-- CALL leaves the return address in LINK and the pc at the target, and changes nothing else (R105). -/
theorem execCall_result : ∃ t, exec (.call a) s = .next t ∧ t.readReg 7 = s.pc + 4 ∧ t.pc = jumpTarget s.pc a ∧
    SameOutside [7] s t :=
  ⟨_, rfl, readReg_writeReg_self s linkReg _, rfl, (sameOutside_write s linkReg _).setPc _⟩

/-- CALLBASE does the same and sets its flag, which is no part of LINK (R106). -/
theorem execCallbase_result : ∃ t, exec (.callbase a) s = .next t ∧ t.readReg 7 = s.pc + 4 ∧
    t.getFlag .callbase = true ∧ BitsKept [8] (s.readReg 27) (t.readReg 27) ∧ t.pc = jumpTarget s.pc a ∧
    SameOutside [7, 27] s t := by
  have hlink := sameOutside_write s linkReg (s.pc + 4)
  refine ⟨_, rfl, ?_, ?_, ?_, rfl, ?_⟩
  · exact (readReg_setFlag ..).trans (readReg_writeReg_self s linkReg _)
  · exact getFlag_setFlag_self ..
  · exact ((BitsKept.refl _).writeReg (r := linkReg) (by decide) _).setFlag (f := .callbase) (by decide) _
  · exact ((hlink.mono (by simp)).setFlag (by simp) _ _).setPc _

end

/-- JR x7 after a call returns to the linked address and keeps every register. -/
theorem execJr_of_link {s t : State} {ws : List Reg} (hlink : t.readReg 7 = s.pc + 4) (h : SameOutside ws s t) :
    ∃ u, exec (.jr 7) t = .next u ∧ u.pc = s.pc + 4 ∧ (∀ r, u.readReg r = t.readReg r) ∧ SameOutside ws s u :=
  ⟨_, rfl, hlink, fun _ => rfl, h.setPc _⟩

/-! ## The statements -/

/-- Settles O35, by the two outcomes of CheckedAdd. -/
theorem addResultOrOverflow : Obligations.AddResultOrOverflow := fun _ _ _ _ =>
  exec_checked_result rfl (checked_decided_by_fits (checkedAdd_cases ..))

/-- Settles O36, by the two outcomes of CheckedSub. -/
theorem subResultOrOverflow : Obligations.SubResultOrOverflow := fun _ _ _ _ =>
  exec_checked_result rfl (checked_decided_by_fits (checkedSub_cases ..))

/-- Settles O37: ADDI is the checked sum with the sign-extended immediate. -/
theorem addiResultOrOverflow : Obligations.AddiResultOrOverflow := by
  intro s rs rt imm
  rw [← sext32_toInt imm]
  exact exec_checked_result rfl (checked_decided_by_fits (checkedAdd_cases ..))

/-- Settles O38: MUL writes TruncMul, the low word of the exact product. -/
theorem mulResult : Obligations.MulResult := by
  intro s rs rt rd
  obtain ⟨t, ht, hrd, hframe⟩ := exec_of_advance_writeReg (i := .mul rs rt rd) (s := s) rfl
  exact ⟨t, ht, by rw [hrd]; exact ofInt_toNat _, hframe⟩

/-- Settles O40: SLT writes Slt, 1 or 0 by the exact comparison. -/
theorem sltResult : Obligations.SltResult := by
  intro s rs rt rd
  obtain ⟨t, ht, hrd, hframe⟩ := exec_of_advance_writeReg (i := .slt rs rt rd) (s := s) rfl
  exact ⟨t, ht, fun hlt => hrd.trans (slt_of_lt hlt), fun hle => hrd.trans (slt_of_le hle), hframe⟩

/-- Settles O42: CBEQ is the conditional branch on equality. -/
theorem compareEqualBranchResult : Obligations.CompareEqualBranchResult := fun s _ _ imm =>
  branchIf_result beq_iff_eq imm s

/-- Settles O44: J ends with a redirect to the fields of its target. -/
theorem jumpResult : Obligations.JumpResult := fun s a =>
  ⟨s.setPc (jumpTarget s.pc a), redirect_eq s _, jumpTarget_fields s.pc a, (SameOutside.refl s).setPc _⟩

/-- Settles O45, by the result of each call and the fields of its target. -/
theorem callsLinkAndCallbaseMarks : Obligations.CallsLinkAndCallbaseMarks := by
  intro s a
  obtain ⟨t, ht, hlink, hpc, hframe⟩ := execCall_result s a
  obtain ⟨u, hu, hlink', hflag, hbits, hpc', hframe'⟩ := execCallbase_result s a
  exact ⟨⟨t, ht, hlink, hpc.trans (jumpTarget_fields ..), hframe⟩,
    u, hu, hlink', hflag, hbits, hpc'.trans (jumpTarget_fields ..), hframe'⟩

/-- Settles O46: each call leaves the return address in LINK, and JR x7 takes it to the pc. -/
theorem jumpRegisterReturnsFromCalls : Obligations.JumpRegisterReturnsFromCalls := by
  intro s a
  constructor
  · obtain ⟨t, ht, hlink, -, hframe⟩ := execCall_result s a
    obtain ⟨u, hu, hpc, hregs, hframe'⟩ := execJr_of_link hlink hframe
    exact ⟨t, u, ht, hu, hpc, (hregs 7).trans hlink, hframe'⟩
  · obtain ⟨t, ht, hlink, hflag, -, -, hframe⟩ := execCallbase_result s a
    obtain ⟨u, hu, hpc, hregs, hframe'⟩ := execJr_of_link hlink hframe
    have hflag' : u.getFlag .callbase = true := by rwa [State.getFlag, hregs]
    exact ⟨t, u, ht, hu, hpc, (hregs 7).trans hlink, hframe', hflag'⟩

end Sys2Proof.Machine
end

section
/-! Results and frames of LW and the suit-state instructions: a destination, Zero and Negative from its value, and the
flags an instruction owns (43_load.md; 44_suit_state.md; 40_functional_units.md R62, R66). -/

namespace Sys2Proof.Machine

/-! ## Frames with Zero and Negative -/

section
variable {owned : List Nat} {d : Reg} {v : Word} {s t : State}

theorem WroteWithZN.mono {owned' : List Nat} (h : WroteWithZN owned d v s t) (hs : owned ⊆ owned') :
    WroteWithZN owned' d v s t := by
  obtain ⟨hd, hzn, hkept, hframe⟩ := h
  refine ⟨hd, hzn, fun k hk => hkept k fun hm => hk ?_, hframe⟩
  exact List.cons_subset_cons 0 (List.cons_subset_cons 1 hs) hm

/-- A flag the instruction owns, other than Zero and Negative, may be written after them (R62, R65). -/
theorem WroteWithZN.setFlag (h : WroteWithZN owned d v s t) {f : Flag} (hf : f.bit ∈ owned) (h2 : 2 ≤ f.bit)
    (b : Bool) : WroteWithZN owned d v s (t.setFlag f b) := by
  obtain ⟨hd, ⟨hz, hn⟩, hkept, hpc, hsame⟩ := h
  refine ⟨fun hne => ?_, ⟨?_, ?_⟩, ?_, hpc, hsame.setFlag (by simp) f b⟩
  · rw [readReg_setFlag, if_neg hne, hd hne]
  · rw [sr_setFlag, srWithFlag_bit, if_neg (by omega), hz]
  · rw [sr_setFlag, srWithFlag_bit, if_neg (by omega), hn]
  · exact hkept.setFlag (List.mem_cons_of_mem _ (List.mem_cons_of_mem _ hf)) b

end

theorem writeReg_writeReg_self (s : State) (r : Reg) (a b : Word) :
    (s.writeReg r a).writeReg r b = s.writeReg r b := by
  simp [State.writeReg]

/-- The order of SetFlag and UpdateZN does not matter for a flag that is neither Zero nor Negative (R65, R66). -/
theorem updateZN_setFlag_comm (s : State) {f : Flag} (h2 : 2 ≤ f.bit) (b : Bool) (v : Word) :
    (s.setFlag f b).updateZN v = (s.updateZN v).setFlag f b := by
  have hsr : srWithZN (srWithFlag (s.readReg srReg) f b) v = srWithFlag (srWithZN (s.readReg srReg) v) f b := by
    apply BitVec.eq_of_getLsbD_eq
    intro k _
    rw [srWithZN_bit, srWithFlag_bit, srWithFlag_bit, srWithZN_bit]
    by_cases hk : k = f.bit
    · have h0 : k ≠ 0 := by omega
      have h1 : k ≠ 1 := by omega
      simp only [if_pos hk, if_neg h0, if_neg h1]
    · simp only [if_neg hk]
  calc (s.setFlag f b).updateZN v
    _ = s.writeReg srReg (srWithZN (srWithFlag (s.readReg srReg) f b) v) := by
      rw [State.updateZN, sr_setFlag]
      exact writeReg_writeReg_self ..
    _ = (s.updateZN v).setFlag f b := by
      rw [hsr, State.setFlag, sr_updateZN]
      exact (writeReg_writeReg_self ..).symm

section
variable {i : Instr} {s : State} {d : Reg} {v : Word}

/-- The common end of LW, THRUST, SCAN and BOOST: the destination, then UpdateZN. -/
theorem exec_writes_zn (hx : exec i s = advance ((s.writeReg d v).updateZN v)) :
    ∃ t, exec i s = .next t ∧ WroteWithZN [] d v s t :=
  ⟨_, hx, wroteWithZN s d v⟩

/-- The common end of LOCKON and of TRANSAM without energy: the destination, a flag, then UpdateZN. -/
theorem exec_writes_flag_zn {f : Flag} (h2 : 2 ≤ f.bit) {b : Bool}
    (hx : exec i s = advance (((s.writeReg d v).setFlag f b).updateZN v)) :
    ∃ t, exec i s = .next t ∧ WroteWithZN [f.bit] d v s t ∧ (t.readReg 27).getLsbD f.bit = b := by
  rw [updateZN_setFlag_comm _ h2] at hx
  have hzn : WroteWithZN [f.bit] d v s (((s.writeReg d v).updateZN v).setPc (s.pc + 4)) :=
    (wroteWithZN s d v).mono (List.nil_subset _)
  exact ⟨_, hx, hzn.setFlag (List.mem_singleton_self _) h2 b, getFlag_setFlag_self ..⟩

end

/-! ## TRANSAM while there is energy -/

/-- What TRANSAM leaves when EN is positive, the pc apart (R122). -/
def transamSpent (s : State) (rd : Reg) (v : Word) : State :=
  ((s.writeReg rd v).spendEnergy.setFlag .transam true).updateZN v

section
variable (s : State) (rd : Reg) (v : Word)

theorem readReg_transamSpent_ne (q : Reg) (hen : q ≠ 25) (hsr : q ≠ 27) :
    (transamSpent s rd v).readReg q = (s.writeReg rd v).readReg q := by
  rw [transamSpent, readReg_updateZN, if_neg hsr, readReg_setFlag, if_neg hsr, readReg_spendEnergy, if_neg hen]

/-- The decrement is of the EN that the write of the destination left (R62, R63). -/
theorem readReg_transamSpent_en :
    (transamSpent s rd v).readReg 25 = (if rd = 25 then v else s.readReg 25) - 1 := by
  have hne : (25 : Reg) ≠ srReg := by decide
  rw [transamSpent, readReg_updateZN, if_neg hne, readReg_setFlag, if_neg hne, readReg_spendEnergy, if_pos rfl,
    readReg_writeReg]
  simp only [eq_comm]

theorem transamSpent_transam : ((transamSpent s rd v).readReg 27).getLsbD 6 = true := by
  rw [transamSpent, updateZN_setFlag_comm _ (by decide)]
  exact getFlag_setFlag_self ..

theorem transamSpent_kept : BitsKept [0, 1, 6] (srAfterWrite s rd v) ((transamSpent s rd v).readReg 27) := by
  rw [← sr_writeReg]
  exact ((BitsKept.refl _).spendEnergy.setFlag (f := .transam) (by decide) true).updateZN v

theorem sameOutside_transamSpent : SameOutside [rd, 25, 27] s (transamSpent s rd v) := by
  have hwrite : SameOutside [rd, 25, 27] s (s.writeReg rd v) := (sameOutside_write s rd v).mono (by simp)
  exact ((hwrite.spendEnergy (by simp)).setFlag (by simp) _ _).updateZN (by simp) v

end

/-- The product TRANSAM writes, three times the value modulo 2^32 (R72, R122). -/
theorem truncMul_three_toNat (a : Word) : ((truncMul a 3).toNat : Int) = 3 * a.toInt % 2 ^ 32 := by
  rw [mul_comm]
  exact ofInt_toNat _

/-! ## DEPLOYBITS for a quotient -/

section
variable (s : State) (rd : Reg) (q : Word)

theorem wroteWithZN_deployed : WroteWithZN [7] rd q s ((deployed rd s q).setPc (s.pc + 4)) := by
  have hzn : WroteWithZN [7] rd q s (((s.writeReg rd q).updateZN q).setPc (s.pc + 4)) :=
    (wroteWithZN s rd q).mono (List.nil_subset _)
  unfold deployed
  by_cases hq : q = 0
  · rwa [if_neg (not_not_intro hq)]
  · rw [if_pos hq]
    exact hzn.setFlag (f := .danger) (by decide) (by decide) false

/-- DANGER is cleared by a quotient that is not zero, and is what the write of the destination left otherwise (R123). -/
theorem deployed_danger : ((deployed rd s q).readReg 27).getLsbD 7 =
    (decide (q = 0) && (srAfterWrite s rd q).getLsbD 7) := by
  unfold deployed
  by_cases hq : q = 0
  · rw [if_neg (not_not_intro hq), sr_updateZN, srWithZN_bit, sr_writeReg]
    simp [hq]
  · rw [if_pos hq, decide_eq_false hq, Bool.false_and]
    exact getFlag_setFlag_self _ .danger false

theorem deployed_pc : (deployed rd s q).pc = s.pc := by
  unfold deployed
  split <;> rfl

end

/-- DEPLOYBITS is one checked quotient. -/
theorem execDeploybits_eq (s : State) (rs rt rd : Reg) : exec (.deploybits rs rt rd) s =
    withChecked (checkedDiv s.params.divMinNeg1 (s.readReg rs) (s.readReg rt)) fun q => advance (deployed rd s q) := rfl

theorem checkedDiv_zero (p a : Word) : checkedDiv p a 0 = .error .divideByZero := if_pos rfl

/-- By a divisor that is not zero there is a quotient, the one that does not fit being the parameter (R73). -/
theorem checkedDiv_of_ne_zero (p a : Word) {b : Word} (hb : b ≠ 0) : ∃ q, checkedDiv p a b = .ok q ∧
    (a = 0x80000000 ∧ b = 0xFFFFFFFF → q = p) ∧
    (¬ (a = 0x80000000 ∧ b = 0xFFFFFFFF) → q.toInt = a.toInt.tdiv b.toInt) := by
  obtain ⟨-, hz⟩ | ⟨hq, hab⟩ | ⟨q, hq, hexact, -, hab⟩ := checkedDiv_cases p a b
  · exact absurd hz hb
  · exact ⟨p, hq, fun _ => rfl, fun hn => absurd hab hn⟩
  · exact ⟨q, hq, fun h => absurd h hab, fun _ => hexact⟩

/-! ## SCAN's selector -/

theorem sext32_injective : Function.Injective sext32 := fun a b h => by
  apply BitVec.eq_of_toInt_eq
  rw [← sext32_toInt a, ← sext32_toInt b, h]

/-- The sign-extended selector is 0, 1 or 2 exactly when the field is (R126). -/
theorem scanValue_eq (imm : Imm16) (s : State) : scanValue imm s =
    if imm = 0 then s.readReg 27 else if imm = 1 then s.readReg 25 else if imm = 2 then s.readReg 26 else 0 := by
  have h0 : sext32 imm = 0 ↔ imm = 0 := sext32_injective.eq_iff' rfl
  have h1 : sext32 imm = 1 ↔ imm = 1 := sext32_injective.eq_iff' rfl
  have h2 : sext32 imm = 2 ↔ imm = 2 := sext32_injective.eq_iff' rfl
  simp only [scanValue, h0, h1, h2]

/-! ## The statements -/

/-- Settles O48: a word that can be read is written to rt and to Zero and Negative, any other address faults. -/
theorem loadWordResultOrAddressFault : Obligations.LoadWordResultOrAddressFault := by
  rintro s rs rt imm addr rfl
  have hx : exec (.lw rs rt imm) s = withChecked (s.memRead (s.readReg rs + imm.signExtend 32))
    fun v => advance ((s.writeReg rt v).updateZN v) := rfl
  refine ⟨fun v ha hv => ?_, fun ha => ?_, fun hv => ?_⟩
  · rw [memRead_of_readWord ha hv] at hx
    exact exec_writes_zn hx
  · rw [hx, memRead_misaligned ha, withChecked_error]
  · rw [hx, memRead_unlisted hv, withChecked_error]

/-- Settles O49: LOCKON writes the boolean to rd and to Lock-on. -/
theorem lockonResult : Obligations.LockonResult := by
  rintro s rs rt rd v rfl
  have hx : exec (.lockon rs rt rd) s = advance (((s.writeReg rd (if s.readReg rs = s.readReg rt then 1 else 0)).setFlag
      .lockon (decide (s.readReg rs = s.readReg rt))).updateZN (if s.readReg rs = s.readReg rt then 1 else 0)) := by
    simp only [exec, execLockon, beq_eq_decide, decide_eq_true_eq]
  exact exec_writes_flag_zn (by decide) hx

/-- Settles O50: SHIELDUP is one SetFlag of bit 4. -/
theorem shieldupResult : Obligations.ShieldupResult := by
  intro s rs
  have hx : exec (.shieldup rs) s = .next ((s.setFlag .shield (decide (s.readReg rs ≠ 0))).setPc (s.pc + 4)) := by
    simp only [exec, execShieldup, advance_eq, setFlag_pc, bne, beq_eq_decide, decide_not, ne_eq]
  refine ⟨_, hx, getFlag_setFlag_self _ .shield _, ?_, rfl, (sameOutside_setFlag s _ _).setPc _⟩
  exact (BitsKept.refl (s.readReg 27)).setFlag (f := .shield) (by decide) _

/-- Settles O51, by the two paths of TRANSAM. -/
theorem transamResult : Obligations.TransamResult := by
  intro s rs rd
  obtain ⟨hen, hx⟩ | ⟨hen, hx⟩ := execTransam_next rs rd s
  · refine ⟨fun _ => ⟨_, _, hx, truncMul_three_toNat _, fun h25 h27 => ?_, ?_, ?_, znOf_updateZN .., ?_, rfl, ?_⟩,
      fun h => absurd hen h⟩
    · exact (readReg_transamSpent_ne s rd _ rd h25 h27).trans (readReg_writeReg_self ..)
    · exact readReg_transamSpent_en s rd _
    · exact transamSpent_transam s rd _
    · exact transamSpent_kept s rd _
    · exact (sameOutside_transamSpent s rd _).setPc _
  · exact ⟨fun h => absurd h hen, fun _ => exec_writes_flag_zn (f := .transam) (by decide) hx⟩

/-- Settles O52: the three cases of CheckedDiv, and what DEPLOYBITS leaves for a quotient. -/
theorem deploybitsResultOrDivideByZero : Obligations.DeploybitsResultOrDivideByZero := by
  intro s rs rt rd
  rw [execDeploybits_eq]
  refine ⟨fun hz => ?_, fun hne => ?_⟩
  · rw [hz, checkedDiv_zero, withChecked_error]
  · obtain ⟨q, hq, hmin, hexact⟩ := checkedDiv_of_ne_zero s.params.divMinNeg1 (s.readReg rs) hne
    refine ⟨(deployed rd s q).setPc (s.pc + 4), q, ?_, hmin, hexact, wroteWithZN_deployed s rd q,
      deployed_danger s rd q⟩
    rw [hq, withChecked_ok, advance_eq, deployed_pc]

/-- Settles O53: THRUST writes the wrapped sum with the scaled immediate. -/
theorem thrustResult : Obligations.ThrustResult := by
  intro s rs rt imm
  obtain ⟨t, ht, hw⟩ := exec_writes_zn (i := .thrust rs rt imm) (s := s) rfl
  refine ⟨t, _, ht, ?_, hw⟩
  have hs := scaledImm_toNat imm
  rw [BitVec.toNat_add]
  omega

/-- Settles O55: the selector picks the register that SCAN copies. -/
theorem scanResult : Obligations.ScanResult := by
  rintro s rt imm v rfl
  rw [← scanValue_eq]
  exact exec_writes_zn rfl

/-- Settles O56: BOOST writes Shl1. -/
theorem boostResult : Obligations.BoostResult := by
  intro s rs rd
  obtain ⟨t, ht, hw⟩ := exec_writes_zn (i := .boost rs rd) (s := s) rfl
  refine ⟨t, _, ht, ?_, hw⟩
  rw [shl1, BitVec.toNat_shiftLeft, Nat.shiftLeft_eq, pow_one, mul_comm]

/-- Settles O54: ENERGIZE is one register write. -/
theorem energizeResult : Obligations.EnergizeResult := fun _ _ => exec_of_advance_writeReg rfl

end Sys2Proof.Machine
end

section
/-! SYSCALL as the host answers it: the answer taken, and the last of the handler's writes to a register or an address
is the one that stays (45_system.md R130; 70_reset_and_hazards.md R164). -/

namespace Sys2Proof.Machine

/-! ## The answer taken -/

theorem hostAnswer_of_listed {s : State} {a : SyscallAnswer} {rest : List SyscallAnswer} (h : s.answers = a :: rest) :
    hostAnswer s = a := by
  simp only [hostAnswer, h]

theorem consumeAnswer_answers (s : State) : (consumeAnswer s).answers = s.answers.tail := by
  cases h : s.answers <;> simp [consumeAnswer, h]

theorem consumeAnswer_draws (s : State) :
    (consumeAnswer s).draws = if s.answers = [] then s.draws + 1 else s.draws := by
  cases h : s.answers <;> simp [consumeAnswer, h]

/-! ## The last write stays -/

/-- The last value a list of writes gives a key, if it writes the key at all. -/
def lastWrite {α β : Type} [DecidableEq α] (ws : List (α × β)) (a : α) : Option β :=
  (ws.reverse.find? fun w => w.1 = a).map (·.2)

theorem lastWrite_append {α β : Type} [DecidableEq α] (ws : List (α × β)) (a b : α) (v : β) :
    lastWrite (ws ++ [(b, v)]) a = if a = b then some v else lastWrite ws a := by
  by_cases h : a = b
  · simp [lastWrite, h]
  · simp [lastWrite, h, Ne.symm h]

theorem readReg_writeRegs (s : State) (ws : List (Reg × Word)) (r : Reg) :
    (writeRegs s ws).readReg r = (lastWrite ws r).getD (s.readReg r) := by
  induction ws using List.reverseRecOn with
  | nil => rfl
  | append_singleton ws w ih =>
    rw [readReg_writeRegs_append, lastWrite_append, ih]
    split <;> rfl

theorem read_writeBytes (m : Memory) (ws : List (Word × Option Byte)) (a : Word) :
    (writeBytes m ws).read a.toNat = (lastWrite ws a).getD (m.read a.toNat) := by
  induction ws using List.reverseRecOn with
  | nil => rfl
  | append_singleton ws w ih =>
    rw [read_writeBytes_append, lastWrite_append, ih]
    simp only [BitVec.toNat_inj]
    split <;> rfl

/-! ## The statement -/

/-- Settles O57: each answer has its own outcome, and where the handler returns the state is what its writes leave. -/
theorem syscallDoesWhatTheHostAnswers : Obligations.SyscallDoesWhatTheHostAnswers := by
  intro s
  refine ⟨fun a rest => hostAnswer_of_listed, fun e he => ?_, fun info left => execSyscall_fault,
    fun left => execSyscall_endsRun, execSyscall_changesImem⟩
  refine ⟨_, execSyscall_returned he, fun r => ?_, fun a => ?_, rfl, rfl, ?_, ?_, ?_, ?_⟩
  · rw [setPc_readReg, applyHostEffect_readReg, readReg_writeRegs, consumeAnswer_readReg]
    rfl
  · rw [setPc_mem, applyHostEffect_mem, consumeAnswer_mem, read_writeBytes]
    rfl
  · rw [setPc_answers, applyHostEffect_answers, consumeAnswer_answers]
  · rw [setPc_draws, applyHostEffect_draws, consumeAnswer_draws]
  · rw [setPc_imem, applyHostEffect_imem, consumeAnswer_imem]
  · rw [setPc_params, applyHostEffect_params, consumeAnswer_params]

end Sys2Proof.Machine
end
